-- ==== Sys2Proof/Word.lean ====
section
/-! DEFINITION. The bit-vector types of the core (00_scope R5, R9; 30_encoding R71): what the spec treats as bits of a
fixed width. Every quantity is unsigned (R9, R122). -/

namespace Sys2Proof

/-- A memory cell or a general register (R5: 8 bits). -/
abbrev Byte := BitVec 8

/-- An instruction word, PC, I or a call-stack slot (R5: 16 bits). -/
abbrev Word := BitVec 16

/-- A nibble field of an instruction: the indices `X`, `Y`, the count `N`, a key index (R71: 4 bits). -/
abbrev Nib := BitVec 4

/-- The field `NNN` (R71: 12 bits). -/
abbrev Addr := BitVec 12

end Sys2Proof
end

