-- ==== Sys2Proof/Machine/Flags.lean ====
section
/-! DEFINITION. The flag computations (10_state R21, the table of what each writer puts in VF). -/

namespace Sys2Proof.Machine

open Sys2Proof

/-- A flag as the byte VF receives. -/
def flagByte (b : Bool) : Byte := if b then 1 else 0

/-- `8XY4`: the exact sum exceeds 0xFF (R116). -/
def carryFlag (a b : Byte) : Byte := flagByte (decide (0xFF < a.toNat + b.toNat))

/-- `8XY5`, `8XY7`: no borrow in `a - b` (R117, R119). -/
def noBorrowFlag (a b : Byte) : Byte := flagByte (decide (b.toNat ≤ a.toNat))

/-- `8XY6`: bit 0 before the shift (R118). -/
def lowBitFlag (a : Byte) : Byte := flagByte (a.getLsbD 0)

/-- `8XYE`: bit 7 before the shift (R120). -/
def highBitFlag (a : Byte) : Byte := flagByte (a.getLsbD 7)

/-- `FX1E`: the exact sum `I + V[X]` exceeds 0xFFF (R131, D17). -/
def indexOverflowFlag (i : Word) (b : Byte) : Byte := flagByte (decide (0xFFF < i.toNat + b.toNat))

end Sys2Proof.Machine
end

