-- ==== Sys2Proof/Config.lean ====
section
/-! DEFINITION. What one instance of the core fixes for its life (00_scope R6), and the one free value (10_state R34).
The parameters are plain data held in State, so every statement about a state quantifies over them
(notes/assumptions/4.md). -/

namespace Sys2Proof

/-- The parameters of R6. -/
structure Config where
  /-- `CLOCK_HZ`: instruction cycles per second of elapsed time (R6, R180). -/
  clockHz : Nat
  /-- `FONT_BASE`: address of the first byte of glyph 0 (R6, R132). -/
  fontBase : Word
  /-- `FONT`: the 16 glyphs, 5 bytes each, digit 0 first (R6, R33). -/
  font : Vector Byte 80
  deriving DecidableEq, Repr

/-- The limits R6 sets: `CLOCK_HZ` is positive, the 80 font bytes lie in 0x000..0x1FF. -/
abbrev Config.valid (c : Config) : Prop :=
  0 < c.clockHz ∧ c.fontBase.toNat + 79 ≤ 0x1FF

/-- The default glyph bytes, the table of R33 (PRESUMED: the spec itself marks the table as general knowledge;
notes/assumptions/4.md). -/
def Config.defaultFont : Vector Byte 80 :=
  #v[0xF0, 0x90, 0x90, 0x90, 0xF0,  0x20, 0x60, 0x20, 0x20, 0x70,
     0xF0, 0x10, 0xF0, 0x80, 0xF0,  0xF0, 0x10, 0xF0, 0x10, 0xF0,
     0x90, 0x90, 0xF0, 0x10, 0x10,  0xF0, 0x80, 0xF0, 0x10, 0xF0,
     0xF0, 0x80, 0xF0, 0x90, 0xF0,  0xF0, 0x10, 0x20, 0x40, 0x40,
     0xF0, 0x90, 0xF0, 0x90, 0xF0,  0xF0, 0x90, 0xF0, 0x10, 0xF0,
     0xF0, 0x90, 0xF0, 0x90, 0x90,  0xE0, 0x90, 0xE0, 0x90, 0xE0,
     0xF0, 0x80, 0x80, 0x80, 0xF0,  0xE0, 0x90, 0x90, 0x90, 0xE0,
     0xF0, 0x80, 0xF0, 0x80, 0xF0,  0xF0, 0x80, 0xF0, 0x80, 0x80]

/-- The defaults of R6: 700 Hz, `FONT_BASE` 0x000, the font of R33. -/
def Config.default : Config where
  clockHz := 700
  fontBase := 0x000
  font := Config.defaultFont

/-- `draw8()` (R10, R34, R121): the n-th random byte. A free value: it has no body, so no proof can know a value of it
(notes/assumptions/5.md). -/
opaque Config.randByte : Nat → Byte

end Sys2Proof
end

