-- ==== Sys2Proof/Machine/State.lean ====
section
/-! DEFINITION. The state of the core: every piece of state of 10_state R20 to R32, the parameters of 00_scope R6, and
four fields of the model's own (`draws`, `inbox`, `activity`, `output`: notes/assumptions/5.md, 1.md, 2.md, 10.md).
Plain data throughout. -/

namespace Sys2Proof.Machine

open Sys2Proof

/-- Faults: none. R8: "There is no fault outcome, no stuck outcome and no refused instruction in this hardware"; R200:
"No error here is fatal to the process". The four error conditions are reports, not faults (notes/assumptions/18.md). -/
inductive Fault where
  deriving DecidableEq, Repr

/-- Refusals. R8: "There is no fault outcome, no stuck outcome and no refused instruction in this hardware". -/
inductive Refusal where
  /-- Raised by `exec` alone, for an instruction that has no meaning yet; no arm raises it now. Safe: nothing can be
  proved of the instruction. -/
  | notModelled (mnemonic : String)
  deriving DecidableEq, Repr

/-- One report record (60_exceptions R201, R207). -/
inductive Report where
  /-- Code 1: an unrecognised word `op` at `pc0` was executed (R202). -/
  | badop (pc0 op : Word)
  /-- Code 2: `00EE` with an empty stack (R203). -/
  | stkunf (pc0 op : Word)
  /-- Code 3: `2NNN` with a full stack (R204). -/
  | stkovf (pc0 op : Word)
  /-- Code 4: `LOAD` of more than 3584 bytes (R205). -/
  | romtrunc (length : Nat)
  deriving DecidableEq, Repr

/-- The host operations (70_reset_and_hazards R241). -/
inductive HostOp where
  /-- Cold reset, power-on (R230). -/
  | coldReset
  /-- `RESET` (R231). -/
  | reset
  /-- `LOAD(bytes)` (R233). -/
  | load (bytes : List Byte)
  /-- `RELOAD()` (R234). -/
  | reload
  /-- `ADVANCE(elapsed_ms)`, an exact rational number of milliseconds (R179, R180). -/
  | advance (elapsedMs : Rat)
  /-- `SET_KEY(index, pressed)` (R163). -/
  | setKey (index : Int) (pressed : Bool)
  /-- `READ_DISPLAY` (R153). -/
  | readDisplay
  /-- `READ_STATUS` (R38). -/
  | readStatus
  deriving DecidableEq, Repr

/-- Where the core stands in the host operation it executes (R180). -/
inductive Activity where
  /-- Between host operations. -/
  | idle
  /-- In `ADVANCE`: `left` cycle attempts are still to come, then `elapsed` joins the accumulator. -/
  | cycles (left : Nat) (elapsed : Rat)
  /-- In `ADVANCE`: the loop that turns the accumulator into timer ticks. -/
  | ticks
  deriving DecidableEq, Repr

/-- The framebuffer `FB` (R27): 32 rows of 64 one-bit pixels; bit x of row y is `FB[y][x]`. -/
abbrev Frame := Vector (BitVec 64) 32

/-- `MEM` (R26) as the cells that differ from the reset image (notes/assumptions/6.md). -/
abbrev Memory := List Host.Cell

/-- What `READ_STATUS` returns (R38, R241): every register, `ERR`, the whole of `MEM`, and `ROM_LOADED`. -/
structure Status where
  v : Vector Byte 16
  pc : Word
  idx : Word
  sp : Fin 17
  stack : Vector Word 16
  dt : Byte
  st : Byte
  wait : Option Nib
  err : BitVec 4
  mem : List Byte
  romLoaded : Bool
  deriving DecidableEq, Repr

/-- What a host operation returns (R207, R153, R38). -/
structure Output where
  /-- The report records raised so far, in order of occurrence (R207). -/
  reports : List Report
  /-- The grid, after `READ_DISPLAY`. -/
  display : Option Frame
  /-- The status, after `READ_STATUS`. -/
  status : Option Status
  deriving DecidableEq, Repr

/-- Nothing returned yet. -/
def Output.empty : Output where
  reports := []
  display := none
  status := none

/-- The state. -/
structure State where
  /-- V0 to VF (R20); VF, the flag, is register 15 (R21). -/
  v : Vector Byte 16
  /-- PC (R22). -/
  pc : Word
  /-- I (R23). -/
  idx : Word
  /-- SP, the number of frames in use (R24). -/
  sp : Fin 17
  /-- `STACK[1..16]` (R24); `STACK[k]` stands at position k-1. -/
  stack : Vector Word 16
  /-- DT (R25). -/
  dt : Byte
  /-- ST (R25). -/
  st : Byte
  /-- `MEM` (R26). -/
  mem : Memory
  /-- `FB` (R27). -/
  fb : Frame
  /-- `KEY[0..15]` (R28). -/
  keys : Vector Bool 16
  /-- `WAIT` (R29): none is `Normal`, some r is `AwaitingKey(r)` (R164). -/
  wait : Option Nib
  /-- The ROM snapshot (R30). -/
  rom : List Byte
  /-- `EVER_LOADED` (R30). -/
  everLoaded : Bool
  /-- `ROM_LOADED` (R30). -/
  romLoaded : Bool
  /-- `ACC`, in milliseconds (R31). -/
  acc : Rat
  /-- `ERR` (R32): bit 0 BADOP, 1 STKUNF, 2 STKOVF, 3 ROMTRUNC. -/
  err : BitVec 4
  /-- The parameters of the instance (R6); no step changes them. -/
  cfg : Config
  /-- The model's own: how many random bytes have been drawn (R34; notes/assumptions/5.md). -/
  draws : Nat
  /-- The model's own: the host operations still to come, the next one first (R240; notes/assumptions/1.md). -/
  inbox : List HostOp
  /-- The model's own: the place inside the host operation in progress (R180; notes/assumptions/2.md). -/
  activity : Activity
  /-- The model's own: what the host operation in progress, or the last one, returns (R207; notes/assumptions/10.md). -/
  output : Output
  deriving DecidableEq, Repr

/-- The outcome of a step or of a meaning. -/
abbrev Result := Host.Outcome State Fault Refusal

/-- The state after cold reset of an instance with parameters `cfg` (R230, R37 first column). Memory lists nothing: it
holds the font and zeros (R232; notes/assumptions/6.md). -/
def State.cold (cfg : Config) : State where
  v := Vector.replicate 16 0
  pc := 0x200
  idx := 0
  sp := 0
  stack := Vector.replicate 16 0
  dt := 0
  st := 0
  mem := []
  fb := Vector.replicate 32 0
  keys := Vector.replicate 16 false
  wait := none
  rom := []
  everLoaded := false
  romLoaded := false
  acc := 0
  err := 0
  cfg := cfg
  draws := 0
  inbox := []
  activity := .idle
  output := .empty

/-- The machine right after cold reset, with the default parameters of R6 and no host operation in sight. -/
def State.reset : State := State.cold Config.default

end Sys2Proof.Machine
end

