-- ==== Sys2Proof/Machine/Ops.lean ====
section
/-! DEFINITION. The named operations over memory, registers, the call stack, the framebuffer, and `report`, the one shared
operation of the four error conditions (60_exceptions R200): this hardware has no exception that transfers control
(R210), so `report` stands where another machine takes a trap, and there is no return from one (R211). -/

namespace Sys2Proof.Machine

open Sys2Proof

/-! ### Memory (20_memory R50 to R56) -/

/-- What a cell holds after `Reinit` (R232): the font at `FONT_BASE..FONT_BASE+79`, 0 elsewhere. It is what an unlisted
address reads as (notes/assumptions/6.md). -/
def resetByte (cfg : Config) (a : Nat) : Byte :=
  if cfg.fontBase.toNat ≤ a then (cfg.font[a - cfg.fontBase.toNat]?).getD 0 else 0

/-- The byte listed for an address, if any. -/
def memLookup (a : Nat) : Memory → Option Byte
  | [] => none
  | (k, b) :: m => if k = a then some b else memLookup a m

/-- The list without any entry for an address. -/
def memErase (a : Nat) : Memory → Memory
  | [] => []
  | (k, b) :: m => if k = a then memErase a m else (k, b) :: memErase a m

/-- The list with one entry for an address put in its place. -/
def memInsert (a : Nat) (v : Byte) : Memory → Memory
  | [] => [(a, v)]
  | (k, b) :: m =>
    if a < k then (a, v) :: (k, b) :: m
    else if a = k then (a, v) :: m
    else (k, b) :: memInsert a v m

/-- `MEM[a]`. -/
def memRead (cfg : Config) (m : Memory) (a : Nat) : Byte :=
  (memLookup a m).getD (resetByte cfg a)

/-- `MEM[a] <- v`, keeping the canonical form: a cell that holds its reset byte is not listed. -/
def memWrite (cfg : Config) (m : Memory) (a : Nat) (v : Byte) : Memory :=
  if v = resetByte cfg a then memErase a m else memInsert a v m

/-- The canonical form: addresses strictly rising and inside the 4096 cells (R50), no cell listed at its reset byte. -/
abbrev Memory.wf (cfg : Config) (m : Memory) : Prop :=
  m.Pairwise (fun c d => c.1 < d.1) ∧ ∀ c ∈ m, c.1 < 4096 ∧ c.2 ≠ resetByte cfg c.1

/-- The mask every address goes through before use (R52, D6): the cell number of a 16-bit address. -/
def cellOf (a : Word) : Nat := (a &&& 0xFFF#16).toNat

/-- `MemRead(addr, 1)` (R52). -/
def State.readByte (s : State) (a : Word) : Byte := memRead s.cfg s.mem (cellOf a)

/-- `MemRead(addr, 2)` (R52): the byte at `addr` is the more significant. -/
def State.readWord (s : State) (a : Word) : Word := s.readByte a ++ s.readByte (a + 1)

/-- `MemWrite(addr, 1, v)` (R52). -/
def State.writeByte (s : State) (a : Word) (b : Byte) : State :=
  { s with mem := memWrite s.cfg s.mem (cellOf a) b }

/-- `MemWrite` of a sequence of bytes at consecutive addresses, ascending (R55). -/
def State.writeBytes (s : State) (a : Word) : List Byte → State
  | [] => s
  | b :: bs => State.writeBytes (s.writeByte a b) (a + 1) bs

/-! ### General registers (10_state R20, R21) -/

/-- Read of `V[x]` (R10). -/
def State.getV (s : State) (x : Nib) : Byte := s.v[x.toNat]'x.isLt

/-- Write of `V[x]` (R10). -/
def State.setV (s : State) (x : Nib) (b : Byte) : State := { s with v := s.v.set x.toNat b x.isLt }

/-- VF is `V[15]` (R10, R21). -/
def regF : Nib := 15#4

/-- The write of a result followed by the write of the flag, in that order (R123, D14; notes/assumptions/12.md). -/
def State.setVFlag (s : State) (x : Nib) (result flag : Byte) : State := (s.setV x result).setV regF flag

/-! ### Program counter (10_state R22) -/

/-- `(pc + 2) & 0xFFF` (R22, R90). -/
def advancePc (pc : Word) : Word := (pc + 2) &&& 0xFFF#16

/-- The address of the instruction being executed, `pc0` of R90, kept only for report records: the fetch has already
moved PC past it (DEDUCED; notes/assumptions/9.md). -/
def State.pc0 (s : State) : Word := (s.pc - 2) &&& 0xFFF#16

/-! ### Reports (60_exceptions R200, R201) -/

/-- The `ERR` bit of a report (R32, R201). -/
def Report.errBit : Report → BitVec 4
  | .badop _ _ => 0b0001
  | .stkunf _ _ => 0b0010
  | .stkovf _ _ => 0b0100
  | .romtrunc _ => 0b1000

/-- The numeric code of a report (R201). -/
def Report.code : Report → Nat
  | .badop _ _ => 1
  | .stkunf _ _ => 2
  | .stkovf _ _ => 3
  | .romtrunc _ => 4

/-- `report <Code>(info)` (R200): set the sticky bit, append the record; execution continues. -/
def State.report (s : State) (r : Report) : State :=
  { s with err := s.err ||| r.errBit, output := { s.output with reports := s.output.reports ++ [r] } }

/-! ### Call stack (10_state R24) -/

/-- `STACK[k]` for k in 1..16; 0 for any other k, which no rule reads. -/
def State.slot (s : State) (k : Nat) : Word :=
  match k with
  | 0 => 0
  | j + 1 => (s.stack[j]?).getD 0

/-- Push: `SP <- SP + 1; STACK[SP] <- w` (R24); none at `SP = 16`. -/
def State.push (s : State) (w : Word) : Option State :=
  if h : s.sp.val < 16 then
    some { s with sp := ⟨s.sp.val + 1, by omega⟩, stack := s.stack.set s.sp.val w h }
  else none

/-- Pop: `value <- STACK[SP]; SP <- SP - 1` (R24); none at `SP = 0`. The slot keeps its value. -/
def State.pop (s : State) : Option (Word × State) :=
  if s.sp.val = 0 then none
  else some (s.slot s.sp.val, { s with sp := ⟨s.sp.val - 1, by omega⟩ })

/-! ### Framebuffer (10_state R27) -/

/-- `FB[y][x]`. -/
def State.pixel (s : State) (y : Fin 32) (x : Fin 64) : Bool := (s.fb[y]).getLsbD x.val

/-- `FB[y][x] <- FB[y][x] ^ 1`. -/
def State.flipPixel (s : State) (y : Fin 32) (x : Fin 64) : State :=
  { s with fb := s.fb.set y.val (s.fb[y] ^^^ BitVec.twoPow 64 x.val) }

/-! ### Keys (10_state R28) -/

/-- `KEY[k]`. -/
def State.key (s : State) (k : Nib) : Bool := s.keys[k.toNat]'k.isLt

end Sys2Proof.Machine
end

