-- ==== Sys2Proof/Machine/Operands.lean ====
section
/-! DEFINITION. The operand forms (30_encoding R73, 42_index_memory): how a field or a register becomes an address, a
key index, a digit or a sprite origin, and the skip every skip instruction shares. -/

namespace Sys2Proof.Machine

open Sys2Proof

/-- `NNN` as a 16-bit address with bits 15..12 zero (R73, R130). -/
def wideAddr (nnn : Addr) : Word := nnn.setWidth 16

/-- A register value as a 16-bit quantity: every widening is a zero extension (R9). -/
def wideByte (b : Byte) : Word := b.setWidth 16

/-- The effective address "index plus constant offset", `I + k` before the mask of R52 (42_index_memory, preamble). -/
def State.indexed (s : State) (k : Nat) : Word := s.idx + BitVec.ofNat 16 k

/-- "keyed by low nibble of VX" (R160) and the digit of `FX29` (R132, D11): `V[x] & 0xF`. -/
def State.lowNibble (s : State) (x : Nib) : Nib := (s.getV x).setWidth 4

/-- The address of the glyph of a digit: `FONT_BASE + 5 * digit` (R132, D9). -/
def glyphAddr (cfg : Config) (digit : Nib) : Word := cfg.fontBase + BitVec.ofNat 16 (5 * digit.toNat)

/-- The target of `BNNN`: `(NNN + V[0]) & 0xFFF` (R94). -/
def State.offsetTarget (s : State) (nnn : Addr) : Word := (wideAddr nnn + wideByte (s.getV 0)) &&& 0xFFF#16

/-- `V[X] mod 64`, the column of the sprite's origin (R151). -/
def State.originX (s : State) (x : Nib) : Nat := (s.getV x).toNat % 64

/-- `V[Y] mod 32`, the row of the sprite's origin (R151). -/
def State.originY (s : State) (y : Nib) : Nat := (s.getV y).toNat % 32

/-- If the condition holds, PC moves past the next instruction (40_control_flow section 3, R95). -/
def State.skipIf (s : State) (c : Bool) : State := if c then { s with pc := advancePc s.pc } else s

end Sys2Proof.Machine
end

