-- ==== Sys2Proof/Machine/Alu.lean ====
section
/-! DEFINITION. Register load, arithmetic, logic, shift, random (41_alu). Sources are read first, the result written,
then VF (R123). -/

namespace Sys2Proof.Machine

open Sys2Proof

/-- `6XNN` (R110). -/
def execLdImm (x : Nib) (nn : Byte) (s : State) : Result := .next (s.setV x nn)

/-- `7XNN` (R111): wraps, no flag. -/
def execAddImm (x : Nib) (nn : Byte) (s : State) : Result := .next (s.setV x (s.getV x + nn))

/-- `8XY0` (R112). -/
def execLdReg (x y : Nib) (s : State) : Result := .next (s.setV x (s.getV y))

/-- `8XY1` (R113). -/
def execOrReg (x y : Nib) (s : State) : Result := .next (s.setV x (s.getV x ||| s.getV y))

/-- `8XY2` (R114). -/
def execAndReg (x y : Nib) (s : State) : Result := .next (s.setV x (s.getV x &&& s.getV y))

/-- `8XY3` (R115). -/
def execXorReg (x y : Nib) (s : State) : Result := .next (s.setV x (s.getV x ^^^ s.getV y))

/-- `8XY4` (R116). -/
def execAddReg (x y : Nib) (s : State) : Result :=
  .next (s.setVFlag x (s.getV x + s.getV y) (carryFlag (s.getV x) (s.getV y)))

/-- `8XY5` (R117). -/
def execSub (x y : Nib) (s : State) : Result :=
  .next (s.setVFlag x (s.getV x - s.getV y) (noBorrowFlag (s.getV x) (s.getV y)))

/-- `8XY6` (R118): `V[X]` shifted in place; `Y` is decoded but ignored (D13). -/
def execShr (x _y : Nib) (s : State) : Result :=
  .next (s.setVFlag x (s.getV x >>> 1) (lowBitFlag (s.getV x)))

/-- `8XY7` (R119). -/
def execSubn (x y : Nib) (s : State) : Result :=
  .next (s.setVFlag x (s.getV y - s.getV x) (noBorrowFlag (s.getV y) (s.getV x)))

/-- `8XYE` (R120): `V[X]` shifted in place; `Y` is decoded but ignored (D13). -/
def execShl (x _y : Nib) (s : State) : Result :=
  .next (s.setVFlag x (s.getV x <<< 1) (highBitFlag (s.getV x)))

/-- `CXNN` (R121): the draw is the free value `Config.randByte`, a fresh one each time (R34; notes/assumptions/5.md). -/
def execRnd (x : Nib) (nn : Byte) (s : State) : Result :=
  .next { s.setV x (Config.randByte s.draws &&& nn) with draws := s.draws + 1 }

end Sys2Proof.Machine
end

