-- ==== Sys2Proof/Syntax.lean ====
section
/-! DEFINITION. The instruction set: one constructor per row of the opcode map (30_encoding R75), in the map's order,
with the operand fields of the row's format (R72). An unrecognised word (R76) is no instruction form: the decoder
answers none for it and the cycle gives its effect (R99). -/

namespace Sys2Proof

/-- The 35 instruction forms of R75. -/
inductive Instr where
  /-- 00E0 -/
  | cls
  /-- 00EE -/
  | ret
  /-- 0NNN, but for 00E0 and 00EE -/
  | sys (nnn : Addr)
  /-- 1NNN -/
  | jp (nnn : Addr)
  /-- 2NNN -/
  | call (nnn : Addr)
  /-- 3XNN -/
  | seImm (x : Nib) (nn : Byte)
  /-- 4XNN -/
  | sneImm (x : Nib) (nn : Byte)
  /-- 5XY0 -/
  | seReg (x y : Nib)
  /-- 9XY0 -/
  | sneReg (x y : Nib)
  /-- 6XNN -/
  | ldImm (x : Nib) (nn : Byte)
  /-- 7XNN -/
  | addImm (x : Nib) (nn : Byte)
  /-- 8XY0 -/
  | ldReg (x y : Nib)
  /-- 8XY1 -/
  | orReg (x y : Nib)
  /-- 8XY2 -/
  | andReg (x y : Nib)
  /-- 8XY3 -/
  | xorReg (x y : Nib)
  /-- 8XY4 -/
  | addReg (x y : Nib)
  /-- 8XY5 -/
  | sub (x y : Nib)
  /-- 8XY6; `Y` is encoded but ignored (R118) -/
  | shr (x y : Nib)
  /-- 8XY7 -/
  | subn (x y : Nib)
  /-- 8XYE; `Y` is encoded but ignored (R120) -/
  | shl (x y : Nib)
  /-- ANNN -/
  | ldI (nnn : Addr)
  /-- BNNN -/
  | jpV0 (nnn : Addr)
  /-- CXNN -/
  | rnd (x : Nib) (nn : Byte)
  /-- DXYN -/
  | drw (x y n : Nib)
  /-- EX9E -/
  | skp (x : Nib)
  /-- EXA1 -/
  | sknp (x : Nib)
  /-- FX07 -/
  | ldVxDt (x : Nib)
  /-- FX15 -/
  | ldDtVx (x : Nib)
  /-- FX18 -/
  | ldStVx (x : Nib)
  /-- FX1E -/
  | addI (x : Nib)
  /-- FX29 -/
  | ldF (x : Nib)
  /-- FX33 -/
  | ldB (x : Nib)
  /-- FX55 -/
  | stRegs (x : Nib)
  /-- FX65 -/
  | ldRegs (x : Nib)
  /-- FX0A -/
  | ldVxK (x : Nib)
  deriving DecidableEq, Repr

end Sys2Proof
end

