-- ==== Sys2Proof/WellFormed.lean ====
section
/-! DEFINITION. When an instruction term stands for a word of its own row. Every field has exactly the width of its bits
(30_encoding R71) and all its values are legal (R73), so the one check is R74's: the `0NNN` row excludes the words
00E0 and 00EE, which are `CLS` and `RET`. -/

namespace Sys2Proof

/-- `NNN` values the `0NNN` row may hold (R74, R75 row 3). -/
def sysOperandOk (nnn : Addr) : Bool := nnn != 0x0E0 && nnn != 0x0EE

/-- The well-formed instruction terms. -/
def Instr.wf : Instr → Bool
  | .cls => true
  | .ret => true
  | .sys nnn => sysOperandOk nnn
  | .jp _ => true
  | .call _ => true
  | .seImm _ _ => true
  | .sneImm _ _ => true
  | .seReg _ _ => true
  | .sneReg _ _ => true
  | .ldImm _ _ => true
  | .addImm _ _ => true
  | .ldReg _ _ => true
  | .orReg _ _ => true
  | .andReg _ _ => true
  | .xorReg _ _ => true
  | .addReg _ _ => true
  | .sub _ _ => true
  | .shr _ _ => true
  | .subn _ _ => true
  | .shl _ _ => true
  | .ldI _ => true
  | .jpV0 _ => true
  | .rnd _ _ => true
  | .drw _ _ _ => true
  | .skp _ => true
  | .sknp _ => true
  | .ldVxDt _ => true
  | .ldDtVx _ => true
  | .ldStVx _ => true
  | .addI _ => true
  | .ldF _ => true
  | .ldB _ => true
  | .stRegs _ => true
  | .ldRegs _ => true
  | .ldVxK _ => true

end Sys2Proof
end

