-- ==== Sys2Proof/Machine/Control.lean ====
section
/-! DEFINITION. Control transfer, skips on registers, unrecognised words (40_control_flow). PC already points at the next
instruction (R90). -/

namespace Sys2Proof.Machine

open Sys2Proof

/-- An unrecognised word (R99, R202): a no-op that reports. -/
def execUnrecognised (op : Word) (s : State) : Result := .next (s.report (.badop s.pc0 op))

/-- `0NNN` (R77, R99): executes like any other unrecognised word. -/
def execSys (nnn : Addr) (s : State) : Result := execUnrecognised (encode (.sys nnn)) s

/-- `00EE` (R91). -/
def execRet (s : State) : Result :=
  match s.pop with
  | some (w, t) => .next { t with pc := w }
  | none => .next (s.report (.stkunf s.pc0 (encode .ret)))

/-- `1NNN` (R92). -/
def execJp (nnn : Addr) (s : State) : Result := .next { s with pc := wideAddr nnn }

/-- `2NNN` (R93): at `SP = 16` rejected, no push and no jump (C1, D20). -/
def execCall (nnn : Addr) (s : State) : Result :=
  match s.push s.pc with
  | some t => .next { t with pc := wideAddr nnn }
  | none => .next (s.report (.stkovf s.pc0 (encode (.call nnn))))

/-- `BNNN` (R94). -/
def execJpV0 (nnn : Addr) (s : State) : Result := .next { s with pc := s.offsetTarget nnn }

/-- `3XNN` (R95). -/
def execSeImm (x : Nib) (nn : Byte) (s : State) : Result := .next (s.skipIf (s.getV x == nn))

/-- `4XNN` (R96). -/
def execSneImm (x : Nib) (nn : Byte) (s : State) : Result := .next (s.skipIf (s.getV x != nn))

/-- `5XY0` (R97). -/
def execSeReg (x y : Nib) (s : State) : Result := .next (s.skipIf (s.getV x == s.getV y))

/-- `9XY0` (R98). -/
def execSneReg (x y : Nib) (s : State) : Result := .next (s.skipIf (s.getV x != s.getV y))

end Sys2Proof.Machine
end

