-- ==== Sys2Proof/Machine/Display.lean ====
section
/-! DEFINITION. The display and sprite engine (43_display). -/

namespace Sys2Proof.Machine

open Sys2Proof

/-- `00E0` (R150). -/
def execCls (s : State) : Result := .next { s with fb := Vector.replicate 32 0 }

/-- One 1 bit of a sprite at a framebuffer cell (R151): a lit pixel that this XOR turns off sets VF. -/
def State.drawPixel (s : State) (y : Fin 32) (x : Fin 64) : State :=
  State.flipPixel (if s.pixel y x then s.setV regF 1 else s) y x

/-- The eight columns of one sprite row (R151): bit 7 of the byte is column 0 (D24); the column wraps modulo 64. -/
def State.drawRow (s : State) (b : Byte) (y : Fin 32) (ox : Nat) : State :=
  (List.range 8).foldl
    (fun t col => if b.getLsbD (7 - col) then t.drawPixel y (Fin.ofNat 64 (ox + col)) else t) s

/-- The n rows of a sprite (R151): row `row` is the byte at `I + row`, drawn on the framebuffer row
`(oy + row) mod 32`. -/
def State.drawSprite (s : State) (ox oy n : Nat) : State :=
  (List.range n).foldl
    (fun t row => t.drawRow (t.readByte (t.indexed row)) (Fin.ofNat 32 (oy + row)) ox) s

/-- `DXYN` (R151): the origin is read before VF is reset to 0 (D25). -/
def execDrw (x y n : Nib) (s : State) : Result :=
  .next ((s.setV regF 0).drawSprite (s.originX x) (s.originY y) n.toNat)

end Sys2Proof.Machine
end

