-- ==== Sys2Proof/Machine/IndexMem.lean ====
section
/-! DEFINITION. The index register and the memory instructions (42_index_memory). I is unchanged by `FX33`, `FX55` and
`FX65` (R136, D12). -/

namespace Sys2Proof.Machine

open Sys2Proof

/-- `ANNN` (R130). -/
def execLdI (nnn : Addr) (s : State) : Result := .next { s with idx := wideAddr nnn }

/-- `FX1E` (R131). -/
def execAddI (x : Nib) (s : State) : Result :=
  .next (State.setV { s with idx := (s.idx + wideByte (s.getV x)) &&& 0xFFF#16 } regF
    (indexOverflowFlag s.idx (s.getV x)))

/-- `FX29` (R132). -/
def execLdF (x : Nib) (s : State) : Result := .next { s with idx := glyphAddr s.cfg (s.lowNibble x) }

/-- The three decimal digits of a byte, hundreds first (R133). -/
def bcdDigits (v : Byte) : List Byte :=
  [BitVec.ofNat 8 (v.toNat / 100), BitVec.ofNat 8 (v.toNat / 10 % 10), BitVec.ofNat 8 (v.toNat % 10)]

/-- `FX33` (R133). -/
def execLdB (x : Nib) (s : State) : Result := .next (s.writeBytes s.idx (bcdDigits (s.getV x)))

/-- `V[0], …, V[n-1]` (R134). -/
def State.firstRegs (s : State) (n : Nat) : List Byte := s.v.toList.take n

/-- `FX55` (R134): `V[0]` at the lowest address, X + 1 bytes. -/
def execStRegs (x : Nib) (s : State) : Result := .next (s.writeBytes s.idx (s.firstRegs (x.toNat + 1)))

/-- The register file after `for k = 0 to n-1: V[k] <- MemRead(I + k, 1)` (R135). -/
def State.loadedRegs (s : State) (n : Nat) : Vector Byte 16 :=
  Vector.ofFn fun k : Fin 16 => if k.val < n then s.readByte (s.indexed k.val) else s.v[k]

/-- `V[0], …, V[n-1]` loaded from I upwards; the registers from n on keep their values (R135). -/
def State.loadRegs (s : State) (n : Nat) : State := { s with v := s.loadedRegs n }

/-- `FX65` (R135): X + 1 bytes. -/
def execLdRegs (x : Nib) (s : State) : Result := .next (s.loadRegs (x.toNat + 1))

end Sys2Proof.Machine
end

