-- ==== Sys2Proof/Machine/Input.lean ====
section
/-! DEFINITION. The key instructions (44_input). -/

namespace Sys2Proof.Machine

open Sys2Proof

/-- `EX9E` (R160). -/
def execSkp (x : Nib) (s : State) : Result := .next (s.skipIf (s.key (s.lowNibble x)))

/-- `EXA1` (R161). -/
def execSknp (x : Nib) (s : State) : Result := .next (s.skipIf (!s.key (s.lowNibble x)))

/-- `FX0A` (R162): enter the key-wait state; `KEY` is not looked at (D23). -/
def execLdVxK (x : Nib) (s : State) : Result := .next { s with wait := some x }

end Sys2Proof.Machine
end

