-- ==== Sys2Proof/Machine/Timers.lean ====
section
/-! DEFINITION. The timer instructions and the timer tick (45_timers_pacing sections 1 and 2). -/

namespace Sys2Proof.Machine

open Sys2Proof

/-- `FX07` (R175). -/
def execLdVxDt (x : Nib) (s : State) : Result := .next (s.setV x s.dt)

/-- `FX15` (R176). -/
def execLdDtVx (x : Nib) (s : State) : Result := .next { s with dt := s.getV x }

/-- `FX18` (R177). -/
def execLdStVx (x : Nib) (s : State) : Result := .next { s with st := s.getV x }

/-- One decrement, floored at 0 (R178). -/
def countDown (b : Byte) : Byte := if b = 0 then 0 else b - 1

/-- `TimerTick()` (R178): each timer has its own floor (D35). -/
def State.timerTick (s : State) : State := { s with dt := countDown s.dt, st := countDown s.st }

end Sys2Proof.Machine
end

