-- ==== Sys2Proof/Machine/Cycle.lean ====
section
/-! DEFINITION. The instruction cycle (40_control_flow R90) and the cycle attempt (45_timers_pacing R181). -/

namespace Sys2Proof.Machine

open Sys2Proof

/-- The word at PC (R90, R70). -/
def State.fetchWord (s : State) : Word := s.readWord s.pc

/-- The state in which an instruction executes: PC has moved past it (R90). -/
def State.afterFetch (s : State) : State := { s with pc := advancePc s.pc }

/-- One fetch-decode-execute (R90). -/
def cycle (s : State) : Result :=
  match decodeWord s.fetchWord with
  | some i => exec i s.afterFetch
  | none => execUnrecognised s.fetchWord s.afterFetch

/-- One cycle attempt (R181): nothing at all while the core waits for a key. -/
def cycleAttempt (s : State) : Result :=
  match s.wait with
  | none => cycle s
  | some _ => .next s

end Sys2Proof.Machine
end

