-- ==== Sys2Proof/Machine/HostOps.lean ====
section
/-! DEFINITION. The host operations (70_reset_and_hazards R230 to R241, 44_input R163, 45_timers_pacing R180) and the
micro-step: one cycle attempt, one turn of the tick loop, or the start of the next host operation (00_scope R7). -/

namespace Sys2Proof.Machine

open Sys2Proof

/-! ### Reset and loading -/

/-- `Reinit()` (R232). Memory becomes the reset image, which lists nothing (notes/assumptions/6.md). -/
def State.reinit (s : State) : State :=
  { s with
    v := Vector.replicate 16 0
    pc := 0x200
    idx := 0
    sp := 0
    stack := Vector.replicate 16 0
    dt := 0
    st := 0
    acc := 0
    err := 0
    mem := []
    fb := Vector.replicate 32 0
    keys := Vector.replicate 16 false
    wait := none }

/-- Cold reset (R230). The random draws to come stay fresh (R34; notes/assumptions/5.md). -/
def State.coldReset (s : State) : State :=
  { s.reinit with rom := [], everLoaded := false, romLoaded := false }

/-- `RESET` (R231): the snapshot is kept. -/
def State.warmReset (s : State) : State := { s.reinit with romLoaded := false }

/-- `ROM_MAX` (R6): 0x1000 - 0x200. -/
def romMax : Nat := 3584

/-- The loading phase of `LOAD` (R233): bytes at 0x200, snapshot kept, runnable. -/
def State.placeRom (s : State) (bytes : List Byte) : State :=
  { s.writeBytes 0x200 (bytes.take romMax) with
    rom := bytes.take romMax
    everLoaded := true
    romLoaded := true }

/-- `LOAD(bytes)` (R233): the report comes after the reset phase, so it survives it (R205). -/
def State.load (s : State) (bytes : List Byte) : State :=
  if romMax < bytes.length then (s.reinit.placeRom bytes).report (.romtrunc bytes.length)
  else s.reinit.placeRom bytes

/-- `RELOAD()` (R234). -/
def State.reload (s : State) : State := if s.everLoaded then s.load s.rom else s

/-! ### Keys -/

/-- A valid `SET_KEY` (R163): a press resolves a pending key-wait. -/
def State.setKeyNib (s : State) (k : Nib) (pressed : Bool) : State :=
  let t : State := { s with keys := s.keys.set k.toNat pressed k.isLt }
  match pressed, s.wait with
  | true, some r => { t.setV r (k.setWidth 8) with wait := none }
  | _, _ => t

/-- `SET_KEY(index, pressed)` (R163): an index outside 0..15 is ignored. -/
def State.setKey (s : State) (index : Int) (pressed : Bool) : State :=
  if index < 0 ∨ 15 < index then s else s.setKeyNib (BitVec.ofNat 4 index.toNat) pressed

/-! ### Pacing -/

/-- `TICK_MS` (R6, R179): 1000/60 = 50/3 milliseconds, exactly. -/
def tickMs : Rat := 50 / 3

/-- `max(elapsed_ms, 0)` (R180, R206). -/
def clampElapsed (e : Rat) : Rat := if e < 0 then 0 else e

/-- `max(1, floor(e * CLOCK_HZ / 1000))` (R180). -/
def attemptCount (cfg : Config) (e : Rat) : Nat := max 1 (e * (cfg.clockHz : Rat) / 1000).floor.toNat

/-- The start of `ADVANCE` (R180): nothing at all without a ROM. -/
def State.beginAdvance (s : State) (elapsedMs : Rat) : State :=
  if s.romLoaded then
    { s with activity := .cycles (attemptCount s.cfg (clampElapsed elapsedMs)) (clampElapsed elapsedMs) }
  else s

/-- `ACC <- ACC + e`, after the last cycle attempt (R180). -/
def State.endCycles (s : State) (e : Rat) : State := { s with acc := s.acc + e, activity := .ticks }

/-- One turn of `while ACC >= 50/3` (R180): a tick, or the end of the `ADVANCE`. -/
def State.tickTurn (s : State) : State :=
  if tickMs ≤ s.acc then { s.timerTick with acc := s.acc - tickMs } else { s with activity := .idle }

/-! ### Read-outs -/

/-- The whole of `MEM`, address 0 first. -/
def State.memImage (s : State) : List Byte := (List.range 4096).map (memRead s.cfg s.mem)

/-- What `READ_STATUS` returns (R38, R241). -/
def State.readStatus (s : State) : Status where
  v := s.v
  pc := s.pc
  idx := s.idx
  sp := s.sp
  stack := s.stack
  dt := s.dt
  st := s.st
  wait := s.wait
  err := s.err
  mem := s.memImage
  romLoaded := s.romLoaded

/-! ### One host operation, one micro-step -/

/-- The start of a host operation on the state whose `output` is already empty (R241); every one but `ADVANCE` is over
at once. -/
def hostOp (op : HostOp) (s : State) : State :=
  match op with
  | .coldReset => s.coldReset
  | .reset => s.warmReset
  | .load bytes => s.load bytes
  | .reload => s.reload
  | .advance elapsedMs => s.beginAdvance elapsedMs
  | .setKey index pressed => s.setKey index pressed
  | .readDisplay => { s with output := { s.output with display := some s.fb } }
  | .readStatus => { s with output := { s.output with status := some s.readStatus } }

/-- Take the next host operation off the list and start it with nothing returned yet (R207). -/
def State.takeOp (s : State) (rest : List HostOp) : State :=
  { s with inbox := rest, output := .empty }

/-- One micro-step (R7, R180). Between host operations, with none to come, the core does nothing (R7). -/
def microStep (s : State) : Result :=
  match s.activity with
  | .cycles (k + 1) e => cycleAttempt { s with activity := .cycles k e }
  | .cycles 0 e => .next (s.endCycles e)
  | .ticks => .next s.tickTurn
  | .idle =>
    match s.inbox with
    | [] => .next s
    | op :: rest => .next (hostOp op (s.takeOp rest))

/-! ### `ADVANCE` as one operation (R180), for statements about the call as a whole -/

/-- `repeat n times: CycleAttempt()` (R180). -/
def runAttempts : Nat → State → Result
  | 0, s => .next s
  | n + 1, s =>
    match cycleAttempt s with
    | .next t => runAttempts n t
    | .fault f => .fault f
    | .refused r => .refused r

/-- k timer ticks. -/
def State.timerTicks : Nat → State → State
  | 0, s => s
  | k + 1, s => State.timerTicks k s.timerTick

/-- The tick phase in closed form (R180): `floor(ACC / (50/3))` ticks, and what is left of ACC. -/
def State.tickPhase (s : State) : State :=
  { State.timerTicks (s.acc / tickMs).floor.toNat s with
    acc := s.acc - (s.acc / tickMs).floor.toNat * tickMs }

/-- `ADVANCE(elapsed_ms)` (R180). -/
def advance (elapsedMs : Rat) (s : State) : Result :=
  if s.romLoaded then
    match runAttempts (attemptCount s.cfg (clampElapsed elapsedMs)) s with
    | .next t => .next (State.tickPhase { t with acc := t.acc + clampElapsed elapsedMs })
    | .fault f => .fault f
    | .refused r => .refused r
  else .next s

end Sys2Proof.Machine
end

