-- ==== Sys2Proof/Machine/Step.lean ====
section
/-! DEFINITION. The step, and where it fetches its next instruction from. -/

namespace Sys2Proof.Machine

open Sys2Proof

/-- One step of the machine: one micro-step (R7; notes/assumptions/2.md). -/
def step (s : State) : Host.Outcome State Fault Refusal := microStep s

/-- `s` with an instruction, numbered as spec/opcode_table.json numbers its bits, stored at PC, and the core inside an
`ADVANCE` with a cycle attempt to come, so that the very next step fetches and runs it: a ROM is loaded (R180), no
key-wait suspends the core (R181), and one attempt is left unless more were (notes/assumptions/3.md). -/
def State.withFetchWord (s : State) (nbits w : Nat) : State :=
  { s.writeBytes s.pc (tableWordBytes nbits w) with
    wait := none
    everLoaded := true
    romLoaded := true
    activity :=
      match s.activity with
      | .cycles (k + 1) e => .cycles (k + 1) e
      | .cycles 0 e => .cycles 1 e
      | .ticks => .cycles 1 0
      | .idle => .cycles 1 0 }

end Sys2Proof.Machine
end

