-- ==== Sys2Proof/Safety.lean ====
section
/-! DEFINITION. What holds of every reachable state (10_state R36), and what a report-free run is (60_exceptions R207). -/

namespace Sys2Proof.Machine

open Sys2Proof

/-- The invariants of R36. The bounds R36 gives for values narrower than their storage; what the types already say
(8-bit registers, SP in 0..16, WAIT a 4-bit index, FB bits) is not repeated. -/
structure State.Inv (s : State) : Prop where
  /-- `0 <= PC <= 0xFFF` (R22). -/
  pcRange : s.pc.toNat ≤ 0xFFF
  /-- `0 <= I <= 0xFFF` (R23). -/
  idxRange : s.idx.toNat ≤ 0xFFF
  /-- `0 <= STACK[k] <= 0xFFF` (R24). -/
  stackRange : ∀ k : Fin 16, (s.stack[k]).toNat ≤ 0xFFF
  /-- ACC is not negative (R31). -/
  accNonneg : 0 ≤ s.acc
  /-- `ACC < 50/3`, but inside the tick loop (R31). -/
  accSmall : s.activity ≠ .ticks → s.acc < tickMs
  /-- `length(ROM) <= 3584` (R30). -/
  romLength : s.rom.length ≤ romMax
  /-- `ROM_LOADED` implies `EVER_LOADED` (R36). -/
  loadedEver : s.romLoaded = true → s.everLoaded = true
  /-- `WAIT = some r` implies `ROM_LOADED` (R36). -/
  waitLoaded : s.wait.isSome = true → s.romLoaded = true
  /-- An `ADVANCE` in progress has found a ROM loaded (R180). -/
  activeLoaded : s.activity ≠ .idle → s.romLoaded = true
  /-- The clamped elapsed time of an `ADVANCE` in progress is not negative (R180). -/
  elapsedNonneg : ∀ n e, s.activity = .cycles n e → 0 ≤ e
  /-- Without a ROM the framebuffer is blank (R153: "it then returns the all-zero grid"). -/
  unloadedBlank : s.romLoaded = false → s.fb = Vector.replicate 32 0
  /-- Memory is in its canonical form. -/
  memWf : s.mem.wf s.cfg
  /-- The parameters are within the limits of R6. -/
  cfgValid : s.cfg.valid

/-- Report-free so far: no error condition since the last reset (R207, "a claim may either assume `ERR = 0` at the end"). -/
abbrev State.clean (s : State) : Prop := s.err = 0

end Sys2Proof.Machine
end

