-- ==== Sys2Proof/Certificates/Slice0/Obligations.lean ====
section
/-! DEFINITION. The statements for the provers. Memory is read one byte at a time by `memRead s.cfg s.mem a`, with `a` a
cell number; a frame is written as an equation: `t = { s with f := t.f }` says that every field but `f` is as before.
`D<n>` is the spec's own decision <n> (spec/92_eei_decisions.md): a clause that rests on one is the spec's choice, not a
sentence of its source. -/

open Sys2Proof Sys2Proof.Machine

/-- The word at PC: two bytes, high byte first, addresses modulo 4096 (R90, R53; the wrap at 0xFFF is D5). -/
def wordAtPc (s : State) : Word :=
  memRead s.cfg s.mem (s.pc.toNat % 4096) ++ memRead s.cfg s.mem ((s.pc.toNat + 1) % 4096)

/-- The next step is a cycle attempt outside the key-wait state, in which the word at PC is fetched (R181). -/
def fetches (s : State) : Prop := (∃ k e, s.activity = .cycles (k + 1) e) ∧ s.wait = none

/-! ### Encoding -/

/-- One word of each family, written out bit by bit from R75, decodes to the instruction it stands for; one near-miss
of `5XY0` to none (strict decoding: D18). -/
def Obligations.SampleWordsDecode : Prop :=
  decodeWord 0b0000000011100000#16 = some .cls ∧
  decodeWord 0b0000000011101110#16 = some .ret ∧
  decodeWord 0b0010001101000101#16 = some (.call 0x345) ∧
  decodeWord 0b1000000100100100#16 = some (.addReg 1 2) ∧
  decodeWord 0b1111001001100101#16 = some (.ldRegs 2) ∧
  decodeWord 0b1101000000010010#16 = some (.drw 0 1 2) ∧
  decodeWord 0b1110001010100001#16 = some (.sknp 2) ∧
  decodeWord 0b1111001100010101#16 = some (.ldDtVx 3) ∧
  decodeWord 0b0101000100100001#16 = none

/-- Every well-formed instruction, at every value of its operands, decodes from its own word (R71 to R75; D18, D19). -/
def Obligations.DecodeAfterEncode : Prop :=
  ∀ i : Instr, i.wf = true → decodeWord (encode i) = some i

/-- A word has one meaning: what decodes to an instruction is that instruction's word (R74). -/
def Obligations.EncodeAfterDecode : Prop :=
  ∀ (w : Word) (i : Instr), decodeWord w = some i → i.wf = true ∧ encode i = w

/-- An instruction is two bytes, high byte first; what follows them is left alone (R70, R53). -/
def Obligations.DecodeBytesTakesTwoBytes : Prop :=
  ∀ (i : Instr) (rest : List Byte), i.wf = true → decodeBytes (encodeBytes i ++ rest) = .ok (i, rest)

/-- The unrecognised words are exactly those of R76's table, and class 0 but for `00E0` and `00EE` is `0NNN`
(strict decoding: D18; `0NNN`: D19). -/
def Obligations.UnrecognisedWordsExactly : Prop :=
  ∀ w : Word,
    (decodeWord w = none ↔
      (w.toNat / 4096 = 0x5 ∧ w.toNat % 16 ≠ 0) ∨
      (w.toNat / 4096 = 0x8 ∧ w.toNat % 16 ∈ [0x8, 0x9, 0xA, 0xB, 0xC, 0xD, 0xF]) ∨
      (w.toNat / 4096 = 0x9 ∧ w.toNat % 16 ≠ 0) ∨
      (w.toNat / 4096 = 0xE ∧ w.toNat % 256 ∉ [0x9E, 0xA1]) ∨
      (w.toNat / 4096 = 0xF ∧
        w.toNat % 256 ∉ [0x07, 0x0A, 0x15, 0x18, 0x1E, 0x29, 0x33, 0x55, 0x65])) ∧
    (w.toNat / 4096 = 0x0 → w ≠ 0x00E0 → w ≠ 0x00EE → decodeWord w = some (.sys (w.setWidth 12)))

/-! ### The cycle -/

/-- A cycle attempt outside the key-wait state fetches two bytes at PC, high byte first, moves PC past them modulo 4096
and executes what they decode to (R90, R181; the wrap at 0xFFF is D5). -/
def Obligations.StepRunsDecodedInstruction : Prop :=
  ∀ (s : State) (k : Nat) (e : Rat) (i : Instr),
    s.activity = .cycles (k + 1) e → s.wait = none →
    decodeWord (memRead s.cfg s.mem (s.pc.toNat % 4096) ++
      memRead s.cfg s.mem ((s.pc.toNat + 1) % 4096)) = some i →
    step s = exec i { s with pc := (s.pc + 2) &&& 0xFFF#16, activity := .cycles k e }

/-- An unrecognised word is passed over: PC moves by 2, `BADOP` is reported with the word's address, nothing else
changes (R99, R202; the report's form is D21). -/
def Obligations.StepPassesOverUnrecognisedWord : Prop :=
  ∀ (s : State) (k : Nat) (e : Rat) (w : Word),
    s.activity = .cycles (k + 1) e → s.wait = none → s.pc.toNat ≤ 0xFFF →
    w = memRead s.cfg s.mem (s.pc.toNat % 4096) ++ memRead s.cfg s.mem ((s.pc.toNat + 1) % 4096) →
    decodeWord w = none →
    ∃ t, step s = .next t ∧
      t = { s with pc := t.pc, activity := .cycles k e, err := s.err ||| 0b0001, output := t.output } ∧
      t.pc.toNat = (s.pc.toNat + 2) % 4096 ∧
      t.output = { s.output with reports := s.output.reports ++ [.badop s.pc w] }

/-- `0NNN` executes like an unrecognised word: `BADOP` with the address before PC, nothing else (R77, R99; D19, D21). -/
def Obligations.SysOnlyReports : Prop :=
  ∀ (s : State) (nnn : Addr),
    ∃ (t : State) (pc0 : Word), exec (.sys nnn) s = .next t ∧
      t = { s with err := s.err ||| 0b0001, output := t.output } ∧
      pc0.toNat < 4096 ∧ (pc0.toNat + 2) % 4096 = s.pc.toNat % 4096 ∧
      t.output = { s.output with reports := s.output.reports ++ [.badop pc0 (nnn.setWidth 16)] }

/-- One cycle attempt: outside the key-wait state it is a cycle; in it no fetch, no PC change, no state change at all, and
so for every attempt left of the call, those after an `FX0A` too. The number of attempts is computed all the same
(R181). -/
def Obligations.CycleAttemptHonoursKeyWait : Prop :=
  (∀ (s : State) (k : Nat) (e : Rat), s.activity = .cycles (k + 1) e → s.wait = none →
    step s = cycle { s with activity := .cycles k e }) ∧
  (∀ (s : State) (k : Nat) (e : Rat) (r : Nib), s.activity = .cycles k e → s.wait = some r →
    Host.Core.run Sys2Proof.core k s = .next { s with activity := .cycles 0 e }) ∧
  (∀ (s : State) (k : Nat) (e : Rat) (x : Nib), s.activity = .cycles k e →
    ∃ t, exec (.ldVxK x) s = .next t ∧
      Host.Core.run Sys2Proof.core k t = .next { t with activity := .cycles 0 e }) ∧
  (∀ (s : State) (e : Rat) (rest : List HostOp) (r : Nib), s.activity = .idle → s.inbox = .advance e :: rest →
    s.romLoaded = true → s.wait = some r →
    step s = .next { s with
      activity := .cycles (attemptCount s.cfg (clampElapsed e)) (clampElapsed e), inbox := rest, output := .empty })

/-! ### Register load, arithmetic, logic, shift, random -/

/-- `6XNN` (R110). -/
def Obligations.LoadImmediate : Prop :=
  ∀ (s : State) (x : Nib) (nn : Byte),
    ∃ t, exec (.ldImm x nn) s = .next t ∧ t = { s with v := t.v } ∧
      t.getV x = nn ∧ ∀ r, r ≠ x → t.getV r = s.getV r

/-- `7XNN` wraps and writes no flag (R111). -/
def Obligations.AddImmediateWraps : Prop :=
  ∀ (s : State) (x : Nib) (nn : Byte),
    ∃ t, exec (.addImm x nn) s = .next t ∧ t = { s with v := t.v } ∧
      (t.getV x).toNat = ((s.getV x).toNat + nn.toNat) % 256 ∧ ∀ r, r ≠ x → t.getV r = s.getV r

/-- `8XY0` to `8XY3`: copy, OR, AND, XOR; VF changes only as the destination (R112 to R115; the copy is D15, the
untouched VF is D16). -/
def Obligations.CopyAndLogic : Prop :=
  ∀ (s : State) (x y : Nib),
    (∃ t, exec (.ldReg x y) s = .next t ∧ t = { s with v := t.v } ∧
      t.getV x = s.getV y ∧ ∀ r, r ≠ x → t.getV r = s.getV r) ∧
    (∃ t, exec (.orReg x y) s = .next t ∧ t = { s with v := t.v } ∧
      (∀ k, (t.getV x).getLsbD k = ((s.getV x).getLsbD k || (s.getV y).getLsbD k)) ∧
      ∀ r, r ≠ x → t.getV r = s.getV r) ∧
    (∃ t, exec (.andReg x y) s = .next t ∧ t = { s with v := t.v } ∧
      (∀ k, (t.getV x).getLsbD k = ((s.getV x).getLsbD k && (s.getV y).getLsbD k)) ∧
      ∀ r, r ≠ x → t.getV r = s.getV r) ∧
    (∃ t, exec (.xorReg x y) s = .next t ∧ t = { s with v := t.v } ∧
      (∀ k, (t.getV x).getLsbD k = ((s.getV x).getLsbD k ^^ (s.getV y).getLsbD k)) ∧
      ∀ r, r ≠ x → t.getV r = s.getV r)

/-- `8XY4`: the wrapped sum, VF the carry of the exact sum; with `X = 15` VF ends as the flag (R116; D14). -/
def Obligations.AddSetsCarry : Prop :=
  ∀ (s : State) (x y : Nib),
    ∃ t, exec (.addReg x y) s = .next t ∧ t = { s with v := t.v } ∧
      (x ≠ 15#4 → (t.getV x).toNat = ((s.getV x).toNat + (s.getV y).toNat) % 256) ∧
      (t.getV 15#4).toNat = (if 0xFF < (s.getV x).toNat + (s.getV y).toNat then 1 else 0) ∧
      ∀ r, r ≠ x → r ≠ 15#4 → t.getV r = s.getV r

/-- `8XY5` and `8XY7`: the wrapped difference, VF the absence of a borrow; with `X = 15` VF ends as the flag (R117,
R119; D14). -/
def Obligations.SubtractSetsNoBorrow : Prop :=
  ∀ (s : State) (x y : Nib),
    (∃ t, exec (.sub x y) s = .next t ∧ t = { s with v := t.v } ∧
      (x ≠ 15#4 → (t.getV x).toNat = ((s.getV x).toNat + 256 - (s.getV y).toNat) % 256) ∧
      (t.getV 15#4).toNat = (if (s.getV y).toNat ≤ (s.getV x).toNat then 1 else 0) ∧
      ∀ r, r ≠ x → r ≠ 15#4 → t.getV r = s.getV r) ∧
    (∃ t, exec (.subn x y) s = .next t ∧ t = { s with v := t.v } ∧
      (x ≠ 15#4 → (t.getV x).toNat = ((s.getV y).toNat + 256 - (s.getV x).toNat) % 256) ∧
      (t.getV 15#4).toNat = (if (s.getV x).toNat ≤ (s.getV y).toNat then 1 else 0) ∧
      ∀ r, r ≠ x → r ≠ 15#4 → t.getV r = s.getV r)

/-- `8XY6` and `8XYE` shift `V[X]` in place by one, whatever `Y` is; VF is the bit shifted out (R118, R120; in place and
`Y` ignored: D13; flag last: D14). -/
def Obligations.ShiftsInPlace : Prop :=
  ∀ (s : State) (x y : Nib),
    (∃ t, exec (.shr x y) s = .next t ∧ t = { s with v := t.v } ∧
      (x ≠ 15#4 → (t.getV x).toNat = (s.getV x).toNat / 2) ∧
      (t.getV 15#4).toNat = (s.getV x).toNat % 2 ∧
      ∀ r, r ≠ x → r ≠ 15#4 → t.getV r = s.getV r) ∧
    (∃ t, exec (.shl x y) s = .next t ∧ t = { s with v := t.v } ∧
      (x ≠ 15#4 → (t.getV x).toNat = (s.getV x).toNat * 2 % 256) ∧
      (t.getV 15#4).toNat = (s.getV x).toNat / 128 ∧
      ∀ r, r ≠ x → r ≠ 15#4 → t.getV r = s.getV r)

/-- `CXNN`: a fresh random byte ANDed with `NN`. The byte is the free value `Config.randByte`; the statement holds
whatever it is (R34, R121; D26, notes/assumptions/5.md). -/
def Obligations.RandomIsMasked : Prop :=
  ∀ (s : State) (x : Nib) (nn : Byte),
    ∃ t, exec (.rnd x nn) s = .next t ∧ t = { s with v := t.v, draws := s.draws + 1 } ∧
      t.getV x = Config.randByte s.draws &&& nn ∧ t.getV x &&& ~~~nn = 0 ∧
      ∀ r, r ≠ x → t.getV r = s.getV r

/-- VF is written implicitly by the seven flag writers alone; any other instruction that changes it names it as its
destination (R21, R123; D16). -/
def Obligations.FlagWritersOnly : Prop :=
  ∀ (i : Instr) (s t : State), exec i s = .next t → t.getV 15#4 ≠ s.getV 15#4 →
    (∃ x y, i = .addReg x y ∨ i = .sub x y ∨ i = .shr x y ∨ i = .subn x y ∨ i = .shl x y ∨
      i = .addI x ∨ ∃ n, i = .drw x y n) ∨
    (∃ y nn, i = .ldImm 15#4 nn ∨ i = .addImm 15#4 nn ∨ i = .ldReg 15#4 y ∨ i = .orReg 15#4 y ∨
      i = .andReg 15#4 y ∨ i = .xorReg 15#4 y ∨ i = .rnd 15#4 nn ∨ i = .ldVxDt 15#4 ∨ i = .ldRegs 15#4)

/-! ### Control transfer -/

/-- `1NNN` (R92). -/
def Obligations.Jump : Prop :=
  ∀ (s : State) (nnn : Addr),
    ∃ t, exec (.jp nnn) s = .next t ∧ t = { s with pc := t.pc } ∧ t.pc.toNat = nnn.toNat

/-- `BNNN` adds `V[0]`, masked to 12 bits, whatever the `X` nibble of the word (R94). -/
def Obligations.JumpWithOffset : Prop :=
  ∀ (s : State) (nnn : Addr),
    ∃ t, exec (.jpV0 nnn) s = .next t ∧ t = { s with pc := t.pc } ∧
      t.pc.toNat = (nnn.toNat + (s.getV 0).toNat) % 4096

/-- `2NNN`: with a free slot it pushes the advanced PC and jumps; with 16 frames in use it is rejected and reports
`STKOVF`, nothing else (R93, R204; rejection C1 and D20, report D21, slots D22). -/
def Obligations.CallPushesOrIsRejected : Prop :=
  ∀ (s : State) (nnn : Addr),
    (s.sp.val < 16 →
      ∃ t, exec (.call nnn) s = .next t ∧ t = { s with sp := t.sp, stack := t.stack, pc := t.pc } ∧
        t.sp.val = s.sp.val + 1 ∧ t.slot t.sp.val = s.pc ∧
        (∀ k, k ≠ t.sp.val → t.slot k = s.slot k) ∧ t.pc.toNat = nnn.toNat) ∧
    (s.sp.val = 16 →
      ∃ (t : State) (pc0 : Word), exec (.call nnn) s = .next t ∧
        t = { s with err := s.err ||| 0b0100, output := t.output } ∧
        pc0.toNat < 4096 ∧ (pc0.toNat + 2) % 4096 = s.pc.toNat % 4096 ∧
        t.output = { s.output with
          reports := s.output.reports ++ [.stkovf pc0 (0x2000#16 + nnn.setWidth 16)] })

/-- `00EE`: with a frame in use it pops the return address into PC, the slot keeping its value; with none it reports
`STKUNF`, nothing else (R91, R203; report D21, slots D22). -/
def Obligations.ReturnPopsOrReports : Prop :=
  ∀ s : State,
    (0 < s.sp.val →
      ∃ t, exec .ret s = .next t ∧ t = { s with sp := t.sp, pc := t.pc } ∧
        t.pc = s.slot s.sp.val ∧ t.sp.val + 1 = s.sp.val) ∧
    (s.sp.val = 0 →
      ∃ (t : State) (pc0 : Word), exec .ret s = .next t ∧
        t = { s with err := s.err ||| 0b0010, output := t.output } ∧
        pc0.toNat < 4096 ∧ (pc0.toNat + 2) % 4096 = s.pc.toNat % 4096 ∧
        t.output = { s.output with reports := s.output.reports ++ [.stkunf pc0 0x00EE] })

/-- A call that is accepted and a return straight after it come back to the instruction after the call, with the same
frames in use (R91, R93, R100). -/
def Obligations.ReturnUndoesCall : Prop :=
  ∀ (s : State) (nnn : Addr), s.sp.val < 16 →
    ∃ t u, exec (.call nnn) s = .next t ∧ exec .ret t = .next u ∧
      u = { s with stack := u.stack } ∧ ∀ k, k ≤ s.sp.val → u.slot k = s.slot k

/-- `3XNN` and `4XNN` (R95, R96; the wrap at 0xFFF is D5). -/
def Obligations.SkipsOnImmediate : Prop :=
  ∀ (s : State) (x : Nib) (nn : Byte),
    (∃ t, exec (.seImm x nn) s = .next t ∧ t = { s with pc := t.pc } ∧
      t.pc.toNat = (if s.getV x = nn then (s.pc.toNat + 2) % 4096 else s.pc.toNat)) ∧
    (∃ t, exec (.sneImm x nn) s = .next t ∧ t = { s with pc := t.pc } ∧
      t.pc.toNat = (if s.getV x = nn then s.pc.toNat else (s.pc.toNat + 2) % 4096))

/-- `5XY0` and `9XY0` (R97, R98; the wrap at 0xFFF is D5). -/
def Obligations.SkipsOnRegisters : Prop :=
  ∀ (s : State) (x y : Nib),
    (∃ t, exec (.seReg x y) s = .next t ∧ t = { s with pc := t.pc } ∧
      t.pc.toNat = (if s.getV x = s.getV y then (s.pc.toNat + 2) % 4096 else s.pc.toNat)) ∧
    (∃ t, exec (.sneReg x y) s = .next t ∧ t = { s with pc := t.pc } ∧
      t.pc.toNat = (if s.getV x = s.getV y then s.pc.toNat else (s.pc.toNat + 2) % 4096))

/-- A jump to itself parks the core: a cycle leaves everything as it was (R240 (a); the convention is D33). -/
def Obligations.SelfJumpParks : Prop :=
  ∀ (s : State) (k : Nat) (e : Rat), s.activity = .cycles (k + 1) e → s.wait = none →
    s.pc.toNat ≤ 0xFFF →
    memRead s.cfg s.mem s.pc.toNat ++ memRead s.cfg s.mem ((s.pc.toNat + 1) % 4096) =
      (0x1000#16 ||| s.pc) →
    step s = .next { s with activity := .cycles k e }

/-! ### Index register and memory -/

/-- `ANNN` (R130). -/
def Obligations.LoadIndex : Prop :=
  ∀ (s : State) (nnn : Addr),
    ∃ t, exec (.ldI nnn) s = .next t ∧ t = { s with idx := t.idx } ∧ t.idx.toNat = nnn.toNat

/-- `FX1E`: I masked to 12 bits, VF 1 iff the exact sum left the range, else 0 (R131; VF written in both cases: D17;
with `X = 15` the flag stays: D14). -/
def Obligations.AddToIndex : Prop :=
  ∀ (s : State) (x : Nib),
    ∃ t, exec (.addI x) s = .next t ∧ t = { s with idx := t.idx, v := t.v } ∧
      t.idx.toNat = (s.idx.toNat + (s.getV x).toNat) % 4096 ∧
      (t.getV 15#4).toNat = (if 0xFFF < s.idx.toNat + (s.getV x).toNat then 1 else 0) ∧
      ∀ r, r ≠ 15#4 → t.getV r = s.getV r

/-- `FX29` points I at the glyph of the low nibble of `V[X]`, inside the font region; I alone changes (R132; low nibble
D11, consecutive glyphs D9). The address is stated for parameters within the limits of R6. -/
def Obligations.PointAtGlyph : Prop :=
  ∀ (s : State) (x : Nib),
    ∃ t, exec (.ldF x) s = .next t ∧ t = { s with idx := t.idx } ∧
      (s.cfg.valid → t.idx.toNat = s.cfg.fontBase.toNat + 5 * ((s.getV x).toNat % 16) ∧
        t.idx.toNat + 4 ≤ 0x1FF)

/-- `FX33` stores the three decimal digits at I, I+1, I+2 and nothing else (R133; addresses wrap per byte: D6; I
unchanged: D12). -/
def Obligations.StoreDecimalDigits : Prop :=
  ∀ (s : State) (x : Nib),
    ∃ t, exec (.ldB x) s = .next t ∧ t = { s with mem := t.mem } ∧
      (memRead t.cfg t.mem (s.idx.toNat % 4096)).toNat = (s.getV x).toNat / 100 ∧
      (memRead t.cfg t.mem ((s.idx.toNat + 1) % 4096)).toNat = (s.getV x).toNat / 10 % 10 ∧
      (memRead t.cfg t.mem ((s.idx.toNat + 2) % 4096)).toNat = (s.getV x).toNat % 10 ∧
      ∀ a, (∀ k, k < 3 → a ≠ (s.idx.toNat + k) % 4096) →
        memRead t.cfg t.mem a = memRead s.cfg s.mem a

/-- `FX55` stores `V[0]..V[X]` from I upwards and nothing else (R134; wrap D6; I unchanged D12). -/
def Obligations.StoreRegisterBlock : Prop :=
  ∀ (s : State) (x : Nib),
    ∃ t, exec (.stRegs x) s = .next t ∧ t = { s with mem := t.mem } ∧
      (∀ r : Nib, r ≤ x → memRead t.cfg t.mem ((s.idx.toNat + r.toNat) % 4096) = s.getV r) ∧
      ∀ a, (∀ k, k ≤ x.toNat → a ≠ (s.idx.toNat + k) % 4096) →
        memRead t.cfg t.mem a = memRead s.cfg s.mem a

/-- `FX65` loads `V[0]..V[X]` from I upwards; registers above `X`, I and memory are unchanged (R135; wrap D6; I
unchanged D12). -/
def Obligations.LoadRegisterBlock : Prop :=
  ∀ (s : State) (x : Nib),
    ∃ t, exec (.ldRegs x) s = .next t ∧ t = { s with v := t.v } ∧
      (∀ r : Nib, r ≤ x → t.getV r = memRead s.cfg s.mem ((s.idx.toNat + r.toNat) % 4096)) ∧
      ∀ r : Nib, x < r → t.getV r = s.getV r

/-- `FX55` then `FX65` with the same `X` gives back the whole state but for the bytes stored (R136, the round-trip
property; I unchanged D12). -/
def Obligations.StoreThenLoadRoundTrip : Prop :=
  ∀ (s : State) (x : Nib),
    ∃ t u, exec (.stRegs x) s = .next t ∧ exec (.ldRegs x) t = .next u ∧ u = t ∧ u.v = s.v

/-- What a cell holds once bytes have been stored from the base address upwards, addresses modulo 4096 (R55; the wrap is
D6): the byte stored there, or else what it held. -/
def cellAfterStore (s : State) (base : Nat) (bytes : List Byte) (a : Nat) : Byte :=
  (bytes[(a + 4096 - base % 4096) % 4096]?).getD (memRead s.cfg s.mem a)

/-- Every store is seen by the very next fetch (R60): after `FX33` or `FX55`, whatever X, I and PC are, the cycle that
follows executes the word that the two cells at PC hold with the stored bytes in them (one, both or neither of the two);
a word that is no instruction is passed over with its report. The fetch wraps by D5 (notes/assumptions/8.md), the store
by D6 (notes/assumptions/14.md); the report's form is D21. -/
def Obligations.StoreSeenByNextFetch : Prop :=
  ∀ (s t : State) (x : Nib) (store : Instr) (bytes : List Byte) (w : Word) (k : Nat) (e : Rat),
    (store = .stRegs x ∧ bytes = (List.range (x.toNat + 1)).map (fun r => s.getV (BitVec.ofNat 4 r))) ∨
      (store = .ldB x ∧ bytes = [BitVec.ofNat 8 ((s.getV x).toNat / 100),
        BitVec.ofNat 8 ((s.getV x).toNat / 10 % 10), BitVec.ofNat 8 ((s.getV x).toNat % 10)]) →
    exec store s = .next t → t.activity = .cycles (k + 1) e → t.wait = none →
    w = cellAfterStore s s.idx.toNat bytes (s.pc.toNat % 4096) ++
      cellAfterStore s s.idx.toNat bytes ((s.pc.toNat + 1) % 4096) →
    (∀ i, decodeWord w = some i →
      step t = exec i { t with pc := (s.pc + 2) &&& 0xFFF#16, activity := .cycles k e }) ∧
    (decodeWord w = none →
      ∃ (u : State) (pc0 : Word), step t = .next u ∧
        u = { t with
          pc := (s.pc + 2) &&& 0xFFF#16, activity := .cycles k e, err := t.err ||| 0b0001, output := u.output } ∧
        pc0.toNat = s.pc.toNat % 4096 ∧
        u.output = { t.output with reports := t.output.reports ++ [.badop pc0 w] })

/-! ### Display -/

/-- `00E0`: all 2048 bits are 0; VF and all else unchanged (R150). -/
def Obligations.ClearDisplay : Prop :=
  ∀ s : State,
    ∃ t, exec .cls s = .next t ∧ t = { s with fb := t.fb } ∧ ∀ y x, t.pixel y x = false

/-- The sprite bit that falls on row y, column x for a sprite of n rows at (ox, oy): the pixel's row and column inside
the sprite, modulo the screen, and the bit 7 - column of the byte at `(I + row) & 0xFFF` (R151; bit order D24). -/
def spriteBit (s : State) (ox oy n : Nat) (y : Fin 32) (x : Fin 64) : Bool :=
  decide ((y.val + 32 - oy) % 32 < n) && decide ((x.val + 64 - ox) % 64 < 8) &&
    (memRead s.cfg s.mem ((s.idx.toNat + (y.val + 32 - oy) % 32) % 4096)).getLsbD (7 - (x.val + 64 - ox) % 64)

/-- `DXYN`: every pixel is XORed with the sprite bit that falls on it, with wraparound on both axes; VF is 1 iff some lit
pixel was turned off; nothing else changes (R151; bit order D24; N = 0 and X or Y = 15: D25; address wrap D6; I unchanged D12). -/
def Obligations.DrawXorsSprite : Prop :=
  ∀ (s : State) (x y n : Nib),
    ∃ t, exec (.drw x y n) s = .next t ∧ t = { s with v := t.v, fb := t.fb } ∧
      (∀ py px, t.pixel py px =
        (s.pixel py px ^^ spriteBit s ((s.getV x).toNat % 64) ((s.getV y).toNat % 32) n.toNat py px)) ∧
      (t.getV 15#4 = 1 ∨ t.getV 15#4 = 0) ∧
      (t.getV 15#4 = 1 ↔ ∃ py px, s.pixel py px = true ∧
        spriteBit s ((s.getV x).toNat % 64) ((s.getV y).toNat % 32) n.toNat py px = true) ∧
      ∀ r, r ≠ 15#4 → t.getV r = s.getV r

/-- The same `DXYN` twice, at the same coordinates, restores the framebuffer; after the second draw VF is 1 iff the
first left a pixel of the sprite lit (R152, C5). -/
def Obligations.DrawTwiceRestores : Prop :=
  ∀ (s t u : State) (x y n : Nib),
    exec (.drw x y n) s = .next t → exec (.drw x y n) t = .next u →
    (t.getV x).toNat % 64 = (s.getV x).toNat % 64 → (t.getV y).toNat % 32 = (s.getV y).toNat % 32 →
    u.fb = s.fb ∧
      (u.getV 15#4 = 1 ↔ ∃ py px, t.pixel py px = true ∧
        spriteBit s ((s.getV x).toNat % 64) ((s.getV y).toNat % 32) n.toNat py px = true)

/-! ### Keys -/

/-- `EX9E` and `EXA1` test the key of the low nibble of `V[X]` (R160, R161; the wrap at 0xFFF is D5). -/
def Obligations.SkipsOnKey : Prop :=
  ∀ (s : State) (x k : Nib), k.toNat = (s.getV x).toNat % 16 →
    (∃ t, exec (.skp x) s = .next t ∧ t = { s with pc := t.pc } ∧
      t.pc.toNat = (if s.key k = true then (s.pc.toNat + 2) % 4096 else s.pc.toNat)) ∧
    (∃ t, exec (.sknp x) s = .next t ∧ t = { s with pc := t.pc } ∧
      t.pc.toNat = (if s.key k = true then s.pc.toNat else (s.pc.toNat + 2) % 4096))

/-- `FX0A` enters the key-wait state for `X`, whatever keys are held, and changes nothing else: PC stays past it (R162;
a held key does not satisfy the wait: D23). -/
def Obligations.WaitForKey : Prop :=
  ∀ (s : State) (x : Nib),
    ∃ t, exec (.ldVxK x) s = .next t ∧ t = { s with wait := t.wait } ∧ t.wait = some x

/-- `SET_KEY` with a valid index: the key takes the new state; a press resolves a pending wait, writing the key's number
into the waiting register; a release never does (R163, R164; what counts as a press is D23). -/
def Obligations.SetKeyTransitions : Prop :=
  ∀ (s : State) (k : Nib) (pressed : Bool) (rest : List HostOp),
    s.activity = .idle → s.inbox = .setKey (k.toNat : Int) pressed :: rest →
    ∃ t, step s = .next t ∧
      t = { s with keys := t.keys, v := t.v, wait := t.wait, inbox := rest, output := .empty } ∧
      t.key k = pressed ∧ (∀ j, j ≠ k → t.key j = s.key j) ∧
      (∀ r, s.wait = some r → pressed = true →
        (t.getV r).toNat = k.toNat ∧ (∀ q, q ≠ r → t.getV q = s.getV q) ∧ t.wait = none) ∧
      (s.wait = none ∨ pressed = false → t.v = s.v ∧ t.wait = s.wait)

/-! ### Timers and pacing -/

/-- `FX07` reads DT, `FX15` writes DT, `FX18` writes ST; ACC is untouched (R175 to R177; which does what is D32). -/
def Obligations.TimerRegisters : Prop :=
  ∀ (s : State) (x : Nib),
    (∃ t, exec (.ldVxDt x) s = .next t ∧ t = { s with v := t.v } ∧
      t.getV x = s.dt ∧ ∀ r, r ≠ x → t.getV r = s.getV r) ∧
    (∃ t, exec (.ldDtVx x) s = .next t ∧ t = { s with dt := t.dt } ∧ t.dt = s.getV x) ∧
    (∃ t, exec (.ldStVx x) s = .next t ∧ t = { s with st := t.st } ∧ t.st = s.getV x)

/-- One turn of the tick loop: at 50/3 ms or more both timers count down, floored at zero, and the interval is taken
off ACC; below it the `ADVANCE` is over (R178, R180; one floor each D35, exact time D2). -/
def Obligations.TickTurn : Prop :=
  ∀ s : State, s.activity = .ticks →
    (50 / 3 ≤ s.acc → ∃ t, step s = .next t ∧ t = { s with dt := t.dt, st := t.st, acc := t.acc } ∧
      t.dt.toNat = s.dt.toNat - 1 ∧ t.st.toNat = s.st.toNat - 1 ∧ t.acc = s.acc - 50 / 3) ∧
    (s.acc < 50 / 3 → step s = .next { s with activity := .idle })

/-- `ADVANCE` on a loaded core starts max(1, floor(e * CLOCK_HZ / 1000)) cycle attempts; without a ROM it does nothing,
not even to ACC (R180; exact time D2, e at most 0: D29). -/
def Obligations.AdvanceStarts : Prop :=
  ∀ (s : State) (e : Rat) (rest : List HostOp), 0 ≤ e → s.activity = .idle → s.inbox = .advance e :: rest →
    (s.romLoaded = true →
      ∃ (t : State) (n : Nat), step s = .next t ∧
        t = { s with activity := .cycles n e, inbox := rest, output := .empty } ∧
        1 ≤ n ∧ (n : Rat) ≤ max 1 (e * s.cfg.clockHz / 1000) ∧ e * s.cfg.clockHz / 1000 < n + 1) ∧
    (s.romLoaded = false → step s = .next { s with inbox := rest, output := .empty })

/-- The micro-steps of an `ADVANCE`, run one by one, end in the state that R180's program computes as one operation: all
cycle attempts, then all ticks (R180; the order is D3). -/
def Obligations.AdvanceStepsRefineTheCall : Prop :=
  ∀ (s : State) (e : Rat) (rest : List HostOp), s.activity = .idle → s.inbox = .advance e :: rest →
    ∃ (n : Nat) (t : State), advance e { s with inbox := rest, output := .empty } = .next t ∧
      Host.Core.run Sys2Proof.core n s = .next t

/-- On a waiting core an `ADVANCE` executes no instruction and the timers still tick: floor((ACC + e) / (50/3)) times,
the rest staying in ACC (R165, R180, R181, R217). -/
def Obligations.SuspendedAdvanceOnlyTicks : Prop :=
  ∀ (s : State) (e : Rat) (r : Nib), s.romLoaded = true → s.wait = some r → 0 ≤ s.acc → 0 ≤ e →
    ∃ (t : State) (n : Nat), advance e s = .next t ∧ t = { s with dt := t.dt, st := t.st, acc := t.acc } ∧
      t.dt.toNat = s.dt.toNat - n ∧ t.st.toNat = s.st.toNat - n ∧
      t.acc = s.acc + e - n * (50 / 3) ∧ 0 ≤ t.acc ∧ t.acc < 50 / 3

/-- The timers do not depend on how elapsed time is split into calls: on a waiting core two `ADVANCE` calls end in the
very state of one call with their sum (R182). -/
def Obligations.TimerRateIndependentOfCalls : Prop :=
  ∀ (s : State) (e₁ e₂ : Rat) (r : Nib), s.romLoaded = true → s.wait = some r → 0 ≤ s.acc →
    0 ≤ e₁ → 0 ≤ e₂ →
    ∃ t u, advance e₁ s = .next t ∧ advance e₂ t = .next u ∧ advance (e₁ + e₂) s = .next u

/-! ### The host -/

/-- Negative elapsed time is treated as zero; a key index outside 0..15 changes nothing and reports nothing (R206). -/
def Obligations.InvalidHostInputIgnored : Prop :=
  (∀ (s : State) (e : Rat) (rest : List HostOp), e < 0 → s.activity = .idle →
    step { s with inbox := .advance e :: rest } = step { s with inbox := .advance 0 :: rest }) ∧
  (∀ (s : State) (k : Int) (p : Bool) (rest : List HostOp), k < 0 ∨ 15 < k → s.activity = .idle →
    step { s with inbox := .setKey k p :: rest } = .next { s with inbox := rest, output := .empty })

/-- The default glyph bytes, written out from the table of R33. -/
def fontTable : List Byte :=
  [0xF0, 0x90, 0x90, 0x90, 0xF0] ++ [0x20, 0x60, 0x20, 0x20, 0x70] ++ [0xF0, 0x10, 0xF0, 0x80, 0xF0] ++
  [0xF0, 0x10, 0xF0, 0x10, 0xF0] ++ [0x90, 0x90, 0xF0, 0x10, 0x10] ++ [0xF0, 0x80, 0xF0, 0x10, 0xF0] ++
  [0xF0, 0x80, 0xF0, 0x90, 0xF0] ++ [0xF0, 0x10, 0x20, 0x40, 0x40] ++ [0xF0, 0x90, 0xF0, 0x90, 0xF0] ++
  [0xF0, 0x90, 0xF0, 0x10, 0xF0] ++ [0xF0, 0x90, 0xF0, 0x90, 0x90] ++ [0xE0, 0x90, 0xE0, 0x90, 0xE0] ++
  [0xF0, 0x80, 0x80, 0x80, 0xF0] ++ [0xE0, 0x90, 0x90, 0x90, 0xE0] ++ [0xF0, 0x80, 0xF0, 0x80, 0xF0] ++
  [0xF0, 0x80, 0xF0, 0x80, 0x80]

/-- The machine after cold reset (R37, R230): every register, every cell of memory, the font byte by byte (every value
but PC's, the empty stack and the font's presence is D8; the default parameters are D4, D9, D10; the fields of the
model's own are not stated). The last clause reads the memory of any instance, cold reset and `RESET` leaving the same
(R232). -/
def Obligations.ColdResetValues : Prop :=
  State.reset.pc = 0x200 ∧ (∀ r, State.reset.getV r = 0) ∧ State.reset.idx = 0 ∧ State.reset.sp = 0 ∧
  (∀ k, State.reset.slot k = 0) ∧ State.reset.dt = 0 ∧ State.reset.st = 0 ∧
  (∀ y x, State.reset.pixel y x = false) ∧ (∀ k, State.reset.key k = false) ∧ State.reset.wait = none ∧
  State.reset.acc = 0 ∧ State.reset.err = 0 ∧ State.reset.rom = [] ∧ State.reset.everLoaded = false ∧
  State.reset.romLoaded = false ∧ State.reset.cfg.clockHz = 700 ∧
  (∀ j, j < 80 → fontTable[j]? = some (memRead State.reset.cfg State.reset.mem j)) ∧
  (∀ a, 80 ≤ a → memRead State.reset.cfg State.reset.mem a = 0) ∧
  ∀ c : Config, c.valid →
    (∀ (j : Nat) (h : j < 80), memRead c (State.cold c).mem (c.fontBase.toNat + j) = c.font[j]) ∧
    ∀ a, a < c.fontBase.toNat ∨ c.fontBase.toNat + 80 ≤ a → memRead c (State.cold c).mem a = 0

/-- Cold reset and `RESET` as host operations: everything to defaults, not runnable; `RESET` keeps the snapshot, cold
reset forgets it (R230 to R232; D8, D27). The parameters, the draws to come and the host's list are not reset. -/
def Obligations.ResetOperations : Prop :=
  ∀ (s : State) (rest : List HostOp), s.activity = .idle →
    step { s with inbox := .coldReset :: rest } =
      .next { State.cold s.cfg with draws := s.draws, inbox := rest } ∧
    step { s with inbox := .reset :: rest } =
      .next { State.cold s.cfg with
        draws := s.draws, inbox := rest, rom := s.rom, everLoaded := s.everLoaded }

/-- `LOAD`: everything reset, the first 3584 bytes at 0x200, the font in its place, 0 elsewhere, the snapshot kept, the
core runnable, `ROMTRUNC` reported for a longer sequence (R233, R205; D8, D21, D28). -/
def Obligations.LoadPlacesRom : Prop :=
  ∀ (s : State) (bytes : List Byte) (rest : List HostOp), s.activity = .idle → s.cfg.valid →
    s.inbox = .load bytes :: rest →
    ∃ t, step s = .next t ∧
      t = { State.cold s.cfg with
        mem := t.mem, rom := bytes.take 3584, everLoaded := true, romLoaded := true,
        err := if 3584 < bytes.length then 0b1000 else 0, draws := s.draws, inbox := rest,
        output := { reports := if 3584 < bytes.length then [.romtrunc bytes.length] else [],
                    display := none, status := none } } ∧
      (∀ j, j < 3584 → (h : j < bytes.length) → memRead t.cfg t.mem (0x200 + j) = bytes[j]) ∧
      (∀ (j : Nat) (h : j < 80), memRead t.cfg t.mem (s.cfg.fontBase.toNat + j) = s.cfg.font[j]) ∧
      (∀ a, (a < s.cfg.fontBase.toNat ∨ s.cfg.fontBase.toNat + 80 ≤ a) →
        (a < 0x200 ∨ 0x200 + bytes.length ≤ a) → memRead t.cfg t.mem a = 0)

/-- `RELOAD` does nothing if nothing was ever loaded; after `LOAD(b)` it gives back the very state of `LOAD(b)`, except
that `ERR.ROMTRUNC` is 0 (and no record is returned) when `b` was too long (R234). -/
def Obligations.ReloadReplaysLoad : Prop :=
  (∀ (s : State) (rest : List HostOp), s.activity = .idle → s.everLoaded = false →
    step { s with inbox := .reload :: rest } = .next { s with inbox := rest, output := .empty }) ∧
  (∀ (s : State) (rest : List HostOp), s.activity = .idle → s.everLoaded = true →
    step { s with inbox := .reload :: rest } = step { s with inbox := .load s.rom :: rest }) ∧
  (∀ (s : State) (bytes : List Byte) (rest : List HostOp), s.activity = .idle →
    ∃ t, step { s with inbox := .load bytes :: rest } = .next t ∧
      Host.Core.run Sys2Proof.core 2 { s with inbox := .load bytes :: .reload :: rest } =
        .next { t with err := 0, output := .empty } ∧
      (bytes.length ≤ 3584 → t.err = 0 ∧ t.output = .empty))

/-- `READ_DISPLAY` returns the framebuffer and changes no state, at any time between host operations; without a ROM the
grid is all zero. Nothing but the cycle of a `00E0` or a `DXYN`, and the blanking of a reset, changes the framebuffer
(R153). -/
def Obligations.ReadDisplayIsASnapshot : Prop :=
  (∀ (s : State) (rest : List HostOp), s.activity = .idle →
    ∃ t, step { s with inbox := .readDisplay :: rest } = .next t ∧
      t = { s with inbox := rest, output := t.output } ∧ t.output.display = some s.fb ∧
      (s.Inv → s.romLoaded = false → t.output.display = some (Vector.replicate 32 0))) ∧
  (∀ s t : State, step s = .next t → t.fb ≠ s.fb →
    (∃ (k : Nat) (e : Rat) (i : Instr), s.activity = .cycles (k + 1) e ∧ s.wait = none ∧
      decodeWord (memRead s.cfg s.mem (s.pc.toNat % 4096) ++
        memRead s.cfg s.mem ((s.pc.toNat + 1) % 4096)) = some i ∧
      (i = .cls ∨ ∃ x y n, i = .drw x y n)) ∨
    (t.fb = Vector.replicate 32 0 ∧ s.activity = .idle ∧ ∃ (op : HostOp) (rest : List HostOp), s.inbox = op :: rest ∧
      (op = .coldReset ∨ op = .reset ∨ op = .reload ∨ ∃ bytes, op = .load bytes)))

/-- `READ_STATUS` returns the registers, `ERR`, the 4096 bytes of memory and `ROM_LOADED`, and changes no state (R38,
R241; D1). -/
def Obligations.ReadStatusShowsTheState : Prop :=
  ∀ (s : State) (rest : List HostOp), s.activity = .idle →
    ∃ (t : State) (st : Status), step { s with inbox := .readStatus :: rest } = .next t ∧
      t = { s with inbox := rest, output := t.output } ∧ t.output.status = some st ∧
      st.v = s.v ∧ st.pc = s.pc ∧ st.idx = s.idx ∧ st.sp = s.sp ∧ st.stack = s.stack ∧ st.dt = s.dt ∧
      st.st = s.st ∧ st.wait = s.wait ∧ st.err = s.err ∧ st.romLoaded = s.romLoaded ∧
      st.mem.length = 4096 ∧ ∀ a, a < 4096 → st.mem[a]? = some (memRead s.cfg s.mem a)

/-! ### The whole machine -/

/-- Every step is total: from every state there is a next state, and a step adds at most one report (R8). -/
def Obligations.StepNeverStops : Prop :=
  ∀ s : State, ∃ t, step s = .next t ∧
    (t.output.reports = s.output.reports ∨ (∃ r, t.output.reports = s.output.reports ++ [r]) ∨
      t.output.reports = [] ∨ ∃ r, t.output.reports = [r])

/-- The invariants of R36 (and the model's own: canonical memory, a blank screen without a ROM) are kept by every step,
from every state that meets them (R36). -/
def Obligations.StepKeepsInvariant : Prop :=
  ∀ s t : State, s.Inv → step s = .next t → t.Inv

/-- The state after cold reset meets the invariants (R36, R37). -/
def Obligations.ResetMeetsInvariant : Prop := State.reset.Inv

/-- The parameters of an instance never change (R6); the count of draws rises by one exactly when the step executes a
`CXNN`, which takes the draw of the count before (R34, R121), and is otherwise unchanged, so no draw is taken twice (D26;
the count is the model's own: notes/assumptions/5.md). -/
def Obligations.ParametersFixedDrawsFresh : Prop :=
  ∀ s t : State, step s = .next t →
    t.cfg = s.cfg ∧
    (∀ x nn, fetches s → decodeWord (wordAtPc s) = some (.rnd x nn) →
      t.draws = s.draws + 1 ∧ t.getV x = Config.randByte s.draws &&& nn) ∧
    ((¬∃ x nn, fetches s ∧ decodeWord (wordAtPc s) = some (.rnd x nn)) → t.draws = s.draws)

/-- Who writes what: each unit is written by its own instructions alone, whatever the program (R22 to R29, R57, R136; I:
D12). -/
def Obligations.EachUnitHasItsWriters : Prop :=
  ∀ (i : Instr) (s t : State), exec i s = .next t →
    (t.idx ≠ s.idx → ∃ nnn x, i = .ldI nnn ∨ i = .addI x ∨ i = .ldF x) ∧
    (t.sp ≠ s.sp ∨ t.stack ≠ s.stack → ∃ nnn, i = .ret ∨ i = .call nnn) ∧
    (t.mem ≠ s.mem → ∃ x, i = .ldB x ∨ i = .stRegs x) ∧
    (t.fb ≠ s.fb → i = .cls ∨ ∃ x y n, i = .drw x y n) ∧
    (t.dt ≠ s.dt → ∃ x, i = .ldDtVx x) ∧ (t.st ≠ s.st → ∃ x, i = .ldStVx x) ∧
    (t.wait ≠ s.wait → ∃ x, i = .ldVxK x) ∧
    (t.pc ≠ s.pc → ∃ nnn x y nn, i = .ret ∨ i = .jp nnn ∨ i = .call nnn ∨ i = .jpV0 nnn ∨
      i = .seImm x nn ∨ i = .sneImm x nn ∨ i = .seReg x y ∨ i = .sneReg x y ∨ i = .skp x ∨ i = .sknp x)

/-- No instruction touches what belongs to the host: the keys, the ROM snapshot, the load flags, ACC, the parameters, the
host's list, the place in the `ADVANCE` (R28, R30, R31, R6). -/
def Obligations.HostStateOutOfReach : Prop :=
  ∀ (i : Instr) (s t : State), exec i s = .next t →
    t.keys = s.keys ∧ t.rom = s.rom ∧ t.everLoaded = s.everLoaded ∧ t.romLoaded = s.romLoaded ∧
    t.acc = s.acc ∧ t.cfg = s.cfg ∧ t.inbox = s.inbox ∧ t.activity = s.activity

/-- `ERR` is sticky, and each of its bits is set by its own rule alone, in every step (R32, R201, R209; D21): `BADOP` by a
cycle whose word is unrecognised or `0NNN`, `STKUNF` by `00EE` with an empty stack, `STKOVF` by `2NNN` with a full one,
`ROMTRUNC` by a `LOAD` of more than 3584 bytes; nothing clears a bit but the reset that a cold reset, `RESET`, `LOAD` and
`RELOAD` begin with (R232). The first clause says the same of one instruction. -/
def Obligations.ErrBitsAreSticky : Prop :=
  (∀ (i : Instr) (s t : State), exec i s = .next t →
    t.err = s.err ∨ (t.err = s.err ||| 0b0001 ∧ ∃ nnn, i = .sys nnn) ∨
    (t.err = s.err ||| 0b0010 ∧ i = .ret ∧ s.sp = 0) ∨
    (t.err = s.err ||| 0b0100 ∧ s.sp.val = 16 ∧ ∃ nnn, i = .call nnn)) ∧
  (∀ s t : State, step s = .next t →
    t.err = s.err ∨
    (t.err = s.err ||| 0b0001 ∧ fetches s ∧
      (decodeWord (wordAtPc s) = none ∨ ∃ nnn, decodeWord (wordAtPc s) = some (.sys nnn))) ∨
    (t.err = s.err ||| 0b0010 ∧ fetches s ∧ decodeWord (wordAtPc s) = some .ret ∧ s.sp = 0) ∨
    (t.err = s.err ||| 0b0100 ∧ fetches s ∧ s.sp.val = 16 ∧
      ∃ nnn, decodeWord (wordAtPc s) = some (.call nnn)) ∨
    (s.activity = .idle ∧ ∃ (op : HostOp) (rest : List HostOp), s.inbox = op :: rest ∧
      (((op = .coldReset ∨ op = .reset) ∧ t.err = 0) ∨
        ∃ bytes, (op = .load bytes ∨ (op = .reload ∧ s.everLoaded = true ∧ bytes = s.rom)) ∧
          t.err = if 3584 < bytes.length then 0b1000 else 0)))

/-- No instruction's effect depends on ST, ACC, `ERR`, the ROM snapshot, the load flags, the host operations still to
come, the place in the `ADVANCE` or what was returned: two states that differ in those alone execute every instruction
with the same effect on everything else (R38, R32). It is a statement about one instruction: over a run a program does
observe ACC through the moment DT changes (R31), and `SET_KEY` through `KEY`. -/
def Obligations.ProgramCannotSeeHostState : Prop :=
  ∀ (i : Instr) (s s' : State),
    s' = { s with st := s'.st, acc := s'.acc, err := s'.err, rom := s'.rom, everLoaded := s'.everLoaded,
                  romLoaded := s'.romLoaded, inbox := s'.inbox, activity := s'.activity, output := s'.output } →
    ∃ t t', exec i s = .next t ∧ exec i s' = .next t' ∧
      t' = { t with st := t'.st, acc := t'.acc, err := t'.err, rom := t'.rom, everLoaded := t'.everLoaded,
                    romLoaded := t'.romLoaded, inbox := t'.inbox, activity := t'.activity, output := t'.output }
end

