-- ==== Sys2Proof/Laws/State.lean ====
section
/-! SUPPORT. What each named update of the state does to each field, one lemma per field per update. -/

namespace Sys2Proof.Machine

open Sys2Proof

/-! ### setV -/

@[simp] theorem State.setV_v (s : State) (x : Nib) (b : Byte) : (s.setV x b).v = s.v.set x.toNat b x.isLt := rfl
@[simp] theorem State.setV_pc (s : State) (x : Nib) (b : Byte) : (s.setV x b).pc = s.pc := rfl
@[simp] theorem State.setV_idx (s : State) (x : Nib) (b : Byte) : (s.setV x b).idx = s.idx := rfl
@[simp] theorem State.setV_sp (s : State) (x : Nib) (b : Byte) : (s.setV x b).sp = s.sp := rfl
@[simp] theorem State.setV_stack (s : State) (x : Nib) (b : Byte) : (s.setV x b).stack = s.stack := rfl
@[simp] theorem State.setV_dt (s : State) (x : Nib) (b : Byte) : (s.setV x b).dt = s.dt := rfl
@[simp] theorem State.setV_st (s : State) (x : Nib) (b : Byte) : (s.setV x b).st = s.st := rfl
@[simp] theorem State.setV_mem (s : State) (x : Nib) (b : Byte) : (s.setV x b).mem = s.mem := rfl
@[simp] theorem State.setV_fb (s : State) (x : Nib) (b : Byte) : (s.setV x b).fb = s.fb := rfl
@[simp] theorem State.setV_keys (s : State) (x : Nib) (b : Byte) : (s.setV x b).keys = s.keys := rfl
@[simp] theorem State.setV_wait (s : State) (x : Nib) (b : Byte) : (s.setV x b).wait = s.wait := rfl
@[simp] theorem State.setV_rom (s : State) (x : Nib) (b : Byte) : (s.setV x b).rom = s.rom := rfl
@[simp] theorem State.setV_everLoaded (s : State) (x : Nib) (b : Byte) : (s.setV x b).everLoaded = s.everLoaded := rfl
@[simp] theorem State.setV_romLoaded (s : State) (x : Nib) (b : Byte) : (s.setV x b).romLoaded = s.romLoaded := rfl
@[simp] theorem State.setV_acc (s : State) (x : Nib) (b : Byte) : (s.setV x b).acc = s.acc := rfl
@[simp] theorem State.setV_err (s : State) (x : Nib) (b : Byte) : (s.setV x b).err = s.err := rfl
@[simp] theorem State.setV_cfg (s : State) (x : Nib) (b : Byte) : (s.setV x b).cfg = s.cfg := rfl
@[simp] theorem State.setV_draws (s : State) (x : Nib) (b : Byte) : (s.setV x b).draws = s.draws := rfl
@[simp] theorem State.setV_inbox (s : State) (x : Nib) (b : Byte) : (s.setV x b).inbox = s.inbox := rfl
@[simp] theorem State.setV_activity (s : State) (x : Nib) (b : Byte) : (s.setV x b).activity = s.activity := rfl
@[simp] theorem State.setV_output (s : State) (x : Nib) (b : Byte) : (s.setV x b).output = s.output := rfl

/-! ### writeByte -/

@[simp] theorem State.writeByte_v (s : State) (a : Word) (b : Byte) : (s.writeByte a b).v = s.v := rfl
@[simp] theorem State.writeByte_pc (s : State) (a : Word) (b : Byte) : (s.writeByte a b).pc = s.pc := rfl
@[simp] theorem State.writeByte_idx (s : State) (a : Word) (b : Byte) : (s.writeByte a b).idx = s.idx := rfl
@[simp] theorem State.writeByte_sp (s : State) (a : Word) (b : Byte) : (s.writeByte a b).sp = s.sp := rfl
@[simp] theorem State.writeByte_stack (s : State) (a : Word) (b : Byte) : (s.writeByte a b).stack = s.stack := rfl
@[simp] theorem State.writeByte_dt (s : State) (a : Word) (b : Byte) : (s.writeByte a b).dt = s.dt := rfl
@[simp] theorem State.writeByte_st (s : State) (a : Word) (b : Byte) : (s.writeByte a b).st = s.st := rfl
@[simp] theorem State.writeByte_mem (s : State) (a : Word) (b : Byte) : (s.writeByte a b).mem = memWrite s.cfg s.mem (cellOf a) b := rfl
@[simp] theorem State.writeByte_fb (s : State) (a : Word) (b : Byte) : (s.writeByte a b).fb = s.fb := rfl
@[simp] theorem State.writeByte_keys (s : State) (a : Word) (b : Byte) : (s.writeByte a b).keys = s.keys := rfl
@[simp] theorem State.writeByte_wait (s : State) (a : Word) (b : Byte) : (s.writeByte a b).wait = s.wait := rfl
@[simp] theorem State.writeByte_rom (s : State) (a : Word) (b : Byte) : (s.writeByte a b).rom = s.rom := rfl
@[simp] theorem State.writeByte_everLoaded (s : State) (a : Word) (b : Byte) : (s.writeByte a b).everLoaded = s.everLoaded := rfl
@[simp] theorem State.writeByte_romLoaded (s : State) (a : Word) (b : Byte) : (s.writeByte a b).romLoaded = s.romLoaded := rfl
@[simp] theorem State.writeByte_acc (s : State) (a : Word) (b : Byte) : (s.writeByte a b).acc = s.acc := rfl
@[simp] theorem State.writeByte_err (s : State) (a : Word) (b : Byte) : (s.writeByte a b).err = s.err := rfl
@[simp] theorem State.writeByte_cfg (s : State) (a : Word) (b : Byte) : (s.writeByte a b).cfg = s.cfg := rfl
@[simp] theorem State.writeByte_draws (s : State) (a : Word) (b : Byte) : (s.writeByte a b).draws = s.draws := rfl
@[simp] theorem State.writeByte_inbox (s : State) (a : Word) (b : Byte) : (s.writeByte a b).inbox = s.inbox := rfl
@[simp] theorem State.writeByte_activity (s : State) (a : Word) (b : Byte) : (s.writeByte a b).activity = s.activity := rfl
@[simp] theorem State.writeByte_output (s : State) (a : Word) (b : Byte) : (s.writeByte a b).output = s.output := rfl

/-! ### report -/

@[simp] theorem State.report_v (s : State) (r : Report) : (s.report r).v = s.v := rfl
@[simp] theorem State.report_pc (s : State) (r : Report) : (s.report r).pc = s.pc := rfl
@[simp] theorem State.report_idx (s : State) (r : Report) : (s.report r).idx = s.idx := rfl
@[simp] theorem State.report_sp (s : State) (r : Report) : (s.report r).sp = s.sp := rfl
@[simp] theorem State.report_stack (s : State) (r : Report) : (s.report r).stack = s.stack := rfl
@[simp] theorem State.report_dt (s : State) (r : Report) : (s.report r).dt = s.dt := rfl
@[simp] theorem State.report_st (s : State) (r : Report) : (s.report r).st = s.st := rfl
@[simp] theorem State.report_mem (s : State) (r : Report) : (s.report r).mem = s.mem := rfl
@[simp] theorem State.report_fb (s : State) (r : Report) : (s.report r).fb = s.fb := rfl
@[simp] theorem State.report_keys (s : State) (r : Report) : (s.report r).keys = s.keys := rfl
@[simp] theorem State.report_wait (s : State) (r : Report) : (s.report r).wait = s.wait := rfl
@[simp] theorem State.report_rom (s : State) (r : Report) : (s.report r).rom = s.rom := rfl
@[simp] theorem State.report_everLoaded (s : State) (r : Report) : (s.report r).everLoaded = s.everLoaded := rfl
@[simp] theorem State.report_romLoaded (s : State) (r : Report) : (s.report r).romLoaded = s.romLoaded := rfl
@[simp] theorem State.report_acc (s : State) (r : Report) : (s.report r).acc = s.acc := rfl
@[simp] theorem State.report_err (s : State) (r : Report) : (s.report r).err = s.err ||| r.errBit := rfl
@[simp] theorem State.report_cfg (s : State) (r : Report) : (s.report r).cfg = s.cfg := rfl
@[simp] theorem State.report_draws (s : State) (r : Report) : (s.report r).draws = s.draws := rfl
@[simp] theorem State.report_inbox (s : State) (r : Report) : (s.report r).inbox = s.inbox := rfl
@[simp] theorem State.report_activity (s : State) (r : Report) : (s.report r).activity = s.activity := rfl
@[simp] theorem State.report_output (s : State) (r : Report) : (s.report r).output = { s.output with reports := s.output.reports ++ [r] } := rfl

/-! ### flipPixel -/

@[simp] theorem State.flipPixel_v (s : State) (y : Fin 32) (x : Fin 64) : (s.flipPixel y x).v = s.v := rfl
@[simp] theorem State.flipPixel_pc (s : State) (y : Fin 32) (x : Fin 64) : (s.flipPixel y x).pc = s.pc := rfl
@[simp] theorem State.flipPixel_idx (s : State) (y : Fin 32) (x : Fin 64) : (s.flipPixel y x).idx = s.idx := rfl
@[simp] theorem State.flipPixel_sp (s : State) (y : Fin 32) (x : Fin 64) : (s.flipPixel y x).sp = s.sp := rfl
@[simp] theorem State.flipPixel_stack (s : State) (y : Fin 32) (x : Fin 64) : (s.flipPixel y x).stack = s.stack := rfl
@[simp] theorem State.flipPixel_dt (s : State) (y : Fin 32) (x : Fin 64) : (s.flipPixel y x).dt = s.dt := rfl
@[simp] theorem State.flipPixel_st (s : State) (y : Fin 32) (x : Fin 64) : (s.flipPixel y x).st = s.st := rfl
@[simp] theorem State.flipPixel_mem (s : State) (y : Fin 32) (x : Fin 64) : (s.flipPixel y x).mem = s.mem := rfl
@[simp] theorem State.flipPixel_fb (s : State) (y : Fin 32) (x : Fin 64) : (s.flipPixel y x).fb = s.fb.set y.val (s.fb[y] ^^^ BitVec.twoPow 64 x.val) := rfl
@[simp] theorem State.flipPixel_keys (s : State) (y : Fin 32) (x : Fin 64) : (s.flipPixel y x).keys = s.keys := rfl
@[simp] theorem State.flipPixel_wait (s : State) (y : Fin 32) (x : Fin 64) : (s.flipPixel y x).wait = s.wait := rfl
@[simp] theorem State.flipPixel_rom (s : State) (y : Fin 32) (x : Fin 64) : (s.flipPixel y x).rom = s.rom := rfl
@[simp] theorem State.flipPixel_everLoaded (s : State) (y : Fin 32) (x : Fin 64) : (s.flipPixel y x).everLoaded = s.everLoaded := rfl
@[simp] theorem State.flipPixel_romLoaded (s : State) (y : Fin 32) (x : Fin 64) : (s.flipPixel y x).romLoaded = s.romLoaded := rfl
@[simp] theorem State.flipPixel_acc (s : State) (y : Fin 32) (x : Fin 64) : (s.flipPixel y x).acc = s.acc := rfl
@[simp] theorem State.flipPixel_err (s : State) (y : Fin 32) (x : Fin 64) : (s.flipPixel y x).err = s.err := rfl
@[simp] theorem State.flipPixel_cfg (s : State) (y : Fin 32) (x : Fin 64) : (s.flipPixel y x).cfg = s.cfg := rfl
@[simp] theorem State.flipPixel_draws (s : State) (y : Fin 32) (x : Fin 64) : (s.flipPixel y x).draws = s.draws := rfl
@[simp] theorem State.flipPixel_inbox (s : State) (y : Fin 32) (x : Fin 64) : (s.flipPixel y x).inbox = s.inbox := rfl
@[simp] theorem State.flipPixel_activity (s : State) (y : Fin 32) (x : Fin 64) : (s.flipPixel y x).activity = s.activity := rfl
@[simp] theorem State.flipPixel_output (s : State) (y : Fin 32) (x : Fin 64) : (s.flipPixel y x).output = s.output := rfl

/-! ### loadRegs -/

@[simp] theorem State.loadRegs_v (s : State) (n : Nat) : (s.loadRegs n).v = s.loadedRegs n := rfl
@[simp] theorem State.loadRegs_pc (s : State) (n : Nat) : (s.loadRegs n).pc = s.pc := by simp only [State.loadRegs]
@[simp] theorem State.loadRegs_idx (s : State) (n : Nat) : (s.loadRegs n).idx = s.idx := by simp only [State.loadRegs]
@[simp] theorem State.loadRegs_sp (s : State) (n : Nat) : (s.loadRegs n).sp = s.sp := by simp only [State.loadRegs]
@[simp] theorem State.loadRegs_stack (s : State) (n : Nat) : (s.loadRegs n).stack = s.stack := by simp only [State.loadRegs]
@[simp] theorem State.loadRegs_dt (s : State) (n : Nat) : (s.loadRegs n).dt = s.dt := by simp only [State.loadRegs]
@[simp] theorem State.loadRegs_st (s : State) (n : Nat) : (s.loadRegs n).st = s.st := by simp only [State.loadRegs]
@[simp] theorem State.loadRegs_mem (s : State) (n : Nat) : (s.loadRegs n).mem = s.mem := by simp only [State.loadRegs]
@[simp] theorem State.loadRegs_fb (s : State) (n : Nat) : (s.loadRegs n).fb = s.fb := by simp only [State.loadRegs]
@[simp] theorem State.loadRegs_keys (s : State) (n : Nat) : (s.loadRegs n).keys = s.keys := by simp only [State.loadRegs]
@[simp] theorem State.loadRegs_wait (s : State) (n : Nat) : (s.loadRegs n).wait = s.wait := by simp only [State.loadRegs]
@[simp] theorem State.loadRegs_rom (s : State) (n : Nat) : (s.loadRegs n).rom = s.rom := by simp only [State.loadRegs]
@[simp] theorem State.loadRegs_everLoaded (s : State) (n : Nat) : (s.loadRegs n).everLoaded = s.everLoaded := by simp only [State.loadRegs]
@[simp] theorem State.loadRegs_romLoaded (s : State) (n : Nat) : (s.loadRegs n).romLoaded = s.romLoaded := by simp only [State.loadRegs]
@[simp] theorem State.loadRegs_acc (s : State) (n : Nat) : (s.loadRegs n).acc = s.acc := by simp only [State.loadRegs]
@[simp] theorem State.loadRegs_err (s : State) (n : Nat) : (s.loadRegs n).err = s.err := by simp only [State.loadRegs]
@[simp] theorem State.loadRegs_cfg (s : State) (n : Nat) : (s.loadRegs n).cfg = s.cfg := by simp only [State.loadRegs]
@[simp] theorem State.loadRegs_draws (s : State) (n : Nat) : (s.loadRegs n).draws = s.draws := by simp only [State.loadRegs]
@[simp] theorem State.loadRegs_inbox (s : State) (n : Nat) : (s.loadRegs n).inbox = s.inbox := by simp only [State.loadRegs]
@[simp] theorem State.loadRegs_activity (s : State) (n : Nat) : (s.loadRegs n).activity = s.activity := by simp only [State.loadRegs]
@[simp] theorem State.loadRegs_output (s : State) (n : Nat) : (s.loadRegs n).output = s.output := by simp only [State.loadRegs]

/-! ### afterFetch -/

@[simp] theorem State.afterFetch_v (s : State) : (s.afterFetch).v = s.v := rfl
@[simp] theorem State.afterFetch_pc (s : State) : (s.afterFetch).pc = advancePc s.pc := rfl
@[simp] theorem State.afterFetch_idx (s : State) : (s.afterFetch).idx = s.idx := rfl
@[simp] theorem State.afterFetch_sp (s : State) : (s.afterFetch).sp = s.sp := rfl
@[simp] theorem State.afterFetch_stack (s : State) : (s.afterFetch).stack = s.stack := rfl
@[simp] theorem State.afterFetch_dt (s : State) : (s.afterFetch).dt = s.dt := rfl
@[simp] theorem State.afterFetch_st (s : State) : (s.afterFetch).st = s.st := rfl
@[simp] theorem State.afterFetch_mem (s : State) : (s.afterFetch).mem = s.mem := rfl
@[simp] theorem State.afterFetch_fb (s : State) : (s.afterFetch).fb = s.fb := rfl
@[simp] theorem State.afterFetch_keys (s : State) : (s.afterFetch).keys = s.keys := rfl
@[simp] theorem State.afterFetch_wait (s : State) : (s.afterFetch).wait = s.wait := rfl
@[simp] theorem State.afterFetch_rom (s : State) : (s.afterFetch).rom = s.rom := rfl
@[simp] theorem State.afterFetch_everLoaded (s : State) : (s.afterFetch).everLoaded = s.everLoaded := rfl
@[simp] theorem State.afterFetch_romLoaded (s : State) : (s.afterFetch).romLoaded = s.romLoaded := rfl
@[simp] theorem State.afterFetch_acc (s : State) : (s.afterFetch).acc = s.acc := rfl
@[simp] theorem State.afterFetch_err (s : State) : (s.afterFetch).err = s.err := rfl
@[simp] theorem State.afterFetch_cfg (s : State) : (s.afterFetch).cfg = s.cfg := rfl
@[simp] theorem State.afterFetch_draws (s : State) : (s.afterFetch).draws = s.draws := rfl
@[simp] theorem State.afterFetch_inbox (s : State) : (s.afterFetch).inbox = s.inbox := rfl
@[simp] theorem State.afterFetch_activity (s : State) : (s.afterFetch).activity = s.activity := rfl
@[simp] theorem State.afterFetch_output (s : State) : (s.afterFetch).output = s.output := rfl

/-! ### timerTick -/

@[simp] theorem State.timerTick_v (s : State) : (s.timerTick).v = s.v := rfl
@[simp] theorem State.timerTick_pc (s : State) : (s.timerTick).pc = s.pc := rfl
@[simp] theorem State.timerTick_idx (s : State) : (s.timerTick).idx = s.idx := rfl
@[simp] theorem State.timerTick_sp (s : State) : (s.timerTick).sp = s.sp := rfl
@[simp] theorem State.timerTick_stack (s : State) : (s.timerTick).stack = s.stack := rfl
@[simp] theorem State.timerTick_dt (s : State) : (s.timerTick).dt = countDown s.dt := rfl
@[simp] theorem State.timerTick_st (s : State) : (s.timerTick).st = countDown s.st := rfl
@[simp] theorem State.timerTick_mem (s : State) : (s.timerTick).mem = s.mem := rfl
@[simp] theorem State.timerTick_fb (s : State) : (s.timerTick).fb = s.fb := rfl
@[simp] theorem State.timerTick_keys (s : State) : (s.timerTick).keys = s.keys := rfl
@[simp] theorem State.timerTick_wait (s : State) : (s.timerTick).wait = s.wait := rfl
@[simp] theorem State.timerTick_rom (s : State) : (s.timerTick).rom = s.rom := rfl
@[simp] theorem State.timerTick_everLoaded (s : State) : (s.timerTick).everLoaded = s.everLoaded := rfl
@[simp] theorem State.timerTick_romLoaded (s : State) : (s.timerTick).romLoaded = s.romLoaded := rfl
@[simp] theorem State.timerTick_acc (s : State) : (s.timerTick).acc = s.acc := rfl
@[simp] theorem State.timerTick_err (s : State) : (s.timerTick).err = s.err := rfl
@[simp] theorem State.timerTick_cfg (s : State) : (s.timerTick).cfg = s.cfg := rfl
@[simp] theorem State.timerTick_draws (s : State) : (s.timerTick).draws = s.draws := rfl
@[simp] theorem State.timerTick_inbox (s : State) : (s.timerTick).inbox = s.inbox := rfl
@[simp] theorem State.timerTick_activity (s : State) : (s.timerTick).activity = s.activity := rfl
@[simp] theorem State.timerTick_output (s : State) : (s.timerTick).output = s.output := rfl

/-! ### takeOp -/

@[simp] theorem State.takeOp_v (s : State) (l : List HostOp) : (s.takeOp l).v = s.v := rfl
@[simp] theorem State.takeOp_pc (s : State) (l : List HostOp) : (s.takeOp l).pc = s.pc := rfl
@[simp] theorem State.takeOp_idx (s : State) (l : List HostOp) : (s.takeOp l).idx = s.idx := rfl
@[simp] theorem State.takeOp_sp (s : State) (l : List HostOp) : (s.takeOp l).sp = s.sp := rfl
@[simp] theorem State.takeOp_stack (s : State) (l : List HostOp) : (s.takeOp l).stack = s.stack := rfl
@[simp] theorem State.takeOp_dt (s : State) (l : List HostOp) : (s.takeOp l).dt = s.dt := rfl
@[simp] theorem State.takeOp_st (s : State) (l : List HostOp) : (s.takeOp l).st = s.st := rfl
@[simp] theorem State.takeOp_mem (s : State) (l : List HostOp) : (s.takeOp l).mem = s.mem := rfl
@[simp] theorem State.takeOp_fb (s : State) (l : List HostOp) : (s.takeOp l).fb = s.fb := rfl
@[simp] theorem State.takeOp_keys (s : State) (l : List HostOp) : (s.takeOp l).keys = s.keys := rfl
@[simp] theorem State.takeOp_wait (s : State) (l : List HostOp) : (s.takeOp l).wait = s.wait := rfl
@[simp] theorem State.takeOp_rom (s : State) (l : List HostOp) : (s.takeOp l).rom = s.rom := rfl
@[simp] theorem State.takeOp_everLoaded (s : State) (l : List HostOp) : (s.takeOp l).everLoaded = s.everLoaded := rfl
@[simp] theorem State.takeOp_romLoaded (s : State) (l : List HostOp) : (s.takeOp l).romLoaded = s.romLoaded := rfl
@[simp] theorem State.takeOp_acc (s : State) (l : List HostOp) : (s.takeOp l).acc = s.acc := rfl
@[simp] theorem State.takeOp_err (s : State) (l : List HostOp) : (s.takeOp l).err = s.err := rfl
@[simp] theorem State.takeOp_cfg (s : State) (l : List HostOp) : (s.takeOp l).cfg = s.cfg := rfl
@[simp] theorem State.takeOp_draws (s : State) (l : List HostOp) : (s.takeOp l).draws = s.draws := rfl
@[simp] theorem State.takeOp_inbox (s : State) (l : List HostOp) : (s.takeOp l).inbox = l := rfl
@[simp] theorem State.takeOp_activity (s : State) (l : List HostOp) : (s.takeOp l).activity = s.activity := rfl
@[simp] theorem State.takeOp_output (s : State) (l : List HostOp) : (s.takeOp l).output = .empty := rfl

/-! ### endCycles -/

@[simp] theorem State.endCycles_v (s : State) (e : Rat) : (s.endCycles e).v = s.v := rfl
@[simp] theorem State.endCycles_pc (s : State) (e : Rat) : (s.endCycles e).pc = s.pc := rfl
@[simp] theorem State.endCycles_idx (s : State) (e : Rat) : (s.endCycles e).idx = s.idx := rfl
@[simp] theorem State.endCycles_sp (s : State) (e : Rat) : (s.endCycles e).sp = s.sp := rfl
@[simp] theorem State.endCycles_stack (s : State) (e : Rat) : (s.endCycles e).stack = s.stack := rfl
@[simp] theorem State.endCycles_dt (s : State) (e : Rat) : (s.endCycles e).dt = s.dt := rfl
@[simp] theorem State.endCycles_st (s : State) (e : Rat) : (s.endCycles e).st = s.st := rfl
@[simp] theorem State.endCycles_mem (s : State) (e : Rat) : (s.endCycles e).mem = s.mem := rfl
@[simp] theorem State.endCycles_fb (s : State) (e : Rat) : (s.endCycles e).fb = s.fb := rfl
@[simp] theorem State.endCycles_keys (s : State) (e : Rat) : (s.endCycles e).keys = s.keys := rfl
@[simp] theorem State.endCycles_wait (s : State) (e : Rat) : (s.endCycles e).wait = s.wait := rfl
@[simp] theorem State.endCycles_rom (s : State) (e : Rat) : (s.endCycles e).rom = s.rom := rfl
@[simp] theorem State.endCycles_everLoaded (s : State) (e : Rat) : (s.endCycles e).everLoaded = s.everLoaded := rfl
@[simp] theorem State.endCycles_romLoaded (s : State) (e : Rat) : (s.endCycles e).romLoaded = s.romLoaded := rfl
@[simp] theorem State.endCycles_acc (s : State) (e : Rat) : (s.endCycles e).acc = s.acc + e := rfl
@[simp] theorem State.endCycles_err (s : State) (e : Rat) : (s.endCycles e).err = s.err := rfl
@[simp] theorem State.endCycles_cfg (s : State) (e : Rat) : (s.endCycles e).cfg = s.cfg := rfl
@[simp] theorem State.endCycles_draws (s : State) (e : Rat) : (s.endCycles e).draws = s.draws := rfl
@[simp] theorem State.endCycles_inbox (s : State) (e : Rat) : (s.endCycles e).inbox = s.inbox := rfl
@[simp] theorem State.endCycles_activity (s : State) (e : Rat) : (s.endCycles e).activity = .ticks := rfl
@[simp] theorem State.endCycles_output (s : State) (e : Rat) : (s.endCycles e).output = s.output := rfl

/-! ### reinit -/

@[simp] theorem State.reinit_v (s : State) : s.reinit.v = Vector.replicate 16 0 := rfl
@[simp] theorem State.reinit_pc (s : State) : s.reinit.pc = 0x200 := rfl
@[simp] theorem State.reinit_idx (s : State) : s.reinit.idx = 0 := rfl
@[simp] theorem State.reinit_sp (s : State) : s.reinit.sp = 0 := rfl
@[simp] theorem State.reinit_stack (s : State) : s.reinit.stack = Vector.replicate 16 0 := rfl
@[simp] theorem State.reinit_dt (s : State) : s.reinit.dt = 0 := rfl
@[simp] theorem State.reinit_st (s : State) : s.reinit.st = 0 := rfl
@[simp] theorem State.reinit_mem (s : State) : s.reinit.mem = [] := rfl
@[simp] theorem State.reinit_fb (s : State) : s.reinit.fb = Vector.replicate 32 0 := rfl
@[simp] theorem State.reinit_keys (s : State) : s.reinit.keys = Vector.replicate 16 false := rfl
@[simp] theorem State.reinit_wait (s : State) : s.reinit.wait = none := rfl
@[simp] theorem State.reinit_rom (s : State) : s.reinit.rom = s.rom := rfl
@[simp] theorem State.reinit_everLoaded (s : State) : s.reinit.everLoaded = s.everLoaded := rfl
@[simp] theorem State.reinit_romLoaded (s : State) : s.reinit.romLoaded = s.romLoaded := rfl
@[simp] theorem State.reinit_acc (s : State) : s.reinit.acc = 0 := rfl
@[simp] theorem State.reinit_err (s : State) : s.reinit.err = 0 := rfl
@[simp] theorem State.reinit_cfg (s : State) : s.reinit.cfg = s.cfg := rfl
@[simp] theorem State.reinit_draws (s : State) : s.reinit.draws = s.draws := rfl
@[simp] theorem State.reinit_inbox (s : State) : s.reinit.inbox = s.inbox := rfl
@[simp] theorem State.reinit_activity (s : State) : s.reinit.activity = s.activity := rfl
@[simp] theorem State.reinit_output (s : State) : s.reinit.output = s.output := rfl

end Sys2Proof.Machine
end

