-- ==== Sys2Proof/Laws/Words.lean ====
section
/-! SUPPORT. The word arithmetic of addresses and of PC, as arithmetic modulo 4096. -/

namespace Sys2Proof.Machine

open Sys2Proof

/-- The 12-bit mask is reduction modulo 4096. -/
theorem mask_toNat (a : Word) : (a &&& 0xFFF#16).toNat = a.toNat % 4096 := by
  rw [BitVec.toNat_and, show (0xFFF#16).toNat = 2 ^ 12 - 1 from rfl, Nat.and_two_pow_sub_one_eq_mod]

@[simp] theorem cellOf_eq (a : Word) : cellOf a = a.toNat % 4096 := mask_toNat a

theorem cellOf_lt (a : Word) : cellOf a < 4096 := by rw [cellOf_eq]; omega

/-- The cell of a base address plus an offset (R52: the mask is applied per byte). -/
theorem cellOf_add (a : Word) (k : Nat) : cellOf (a + BitVec.ofNat 16 k) = (a.toNat + k) % 4096 := by
  simp [BitVec.toNat_add, BitVec.toNat_ofNat]

theorem advancePc_toNat (pc : Word) : (advancePc pc).toNat = (pc.toNat + 2) % 4096 := by
  rw [advancePc, mask_toNat, BitVec.toNat_add]; simp

/-- The report's address, moved past the instruction, is PC. -/
theorem pc0_toNat (s : State) : s.pc0.toNat < 4096 ∧ (s.pc0.toNat + 2) % 4096 = s.pc.toNat % 4096 := by
  rw [State.pc0, mask_toNat, BitVec.toNat_sub]
  have := s.pc.isLt
  simp
  omega

/-- After the fetch, `pc0` is the address fetched from (R90). -/
theorem pc0_afterFetch (s : State) (h : s.pc.toNat ≤ 0xFFF) : s.afterFetch.pc0 = s.pc := by
  apply BitVec.eq_of_toNat_eq
  have h0 := pc0_toNat s.afterFetch
  rw [show s.afterFetch.pc = advancePc s.pc from rfl, advancePc_toNat] at h0
  omega

@[simp] theorem wideAddr_toNat (nnn : Addr) : (wideAddr nnn).toNat = nnn.toNat := by
  simp only [wideAddr, BitVec.toNat_setWidth]; omega

@[simp] theorem wideByte_toNat (b : Byte) : (wideByte b).toNat = b.toNat := by
  simp only [wideByte, BitVec.toNat_setWidth]; omega

theorem offsetTarget_toNat (s : State) (nnn : Addr) :
    (s.offsetTarget nnn).toNat = (nnn.toNat + (s.getV 0).toNat) % 4096 := by
  rw [State.offsetTarget, mask_toNat, BitVec.toNat_add, wideAddr_toNat, wideByte_toNat]; omega

theorem lowNibble_toNat (s : State) (x : Nib) : (s.lowNibble x).toNat = (s.getV x).toNat % 16 := by
  simp [State.lowNibble]

theorem flagByte_toNat (b : Bool) : (flagByte b).toNat = if b then 1 else 0 := by cases b <;> rfl

end Sys2Proof.Machine
end

