-- ==== Sys2Proof/Laws/Memory.lean ====
section
/-! SUPPORT. The laws of memory (20_memory R52, R55): a read after a write, the canonical form, and what a run of byte
writes leaves. -/

namespace Sys2Proof.Machine

open Sys2Proof

theorem memLookup_insert (a b : Nat) (v : Byte) (m : Memory) :
    memLookup b (memInsert a v m) = if b = a then some v else memLookup b m := by
  induction m with
  | nil => simp [memInsert, memLookup, eq_comm]
  | cons c m ih =>
    obtain ⟨k, w⟩ := c
    simp only [memInsert]
    split
    · simp [memLookup, eq_comm]
    · split
      · rename_i h1 h2
        subst h2
        by_cases h : a = b
        · simp [memLookup, h]
        · simp [memLookup, h, Ne.symm h]
      · rename_i h1 h2
        simp only [memLookup, ih]
        by_cases h : k = b
        · subst h
          simp [Ne.symm h2]
        · simp [h]

theorem memLookup_erase (a b : Nat) (m : Memory) :
    memLookup b (memErase a m) = if b = a then none else memLookup b m := by
  induction m with
  | nil => simp [memErase, memLookup]
  | cons c m ih =>
    obtain ⟨k, w⟩ := c
    simp only [memErase]
    split
    · rename_i h
      subst h
      rw [ih]
      by_cases h : k = b <;> simp [memLookup, h]
    · rename_i h
      simp only [memLookup, ih]
      by_cases h2 : k = b
      · subst h2
        simp [h]
      · simp [h2]

/-- A read after a write: the byte written at its own cell, the old byte everywhere else (R58 (3)). -/
theorem memRead_write (cfg : Config) (m : Memory) (a b : Nat) (v : Byte) :
    memRead cfg (memWrite cfg m a v) b = if b = a then v else memRead cfg m b := by
  unfold memRead memWrite
  split
  · rename_i h
    rw [memLookup_erase]
    split
    · rename_i h2; subst h2; simp [h]
    · rfl
  · rw [memLookup_insert]
    split <;> rfl

theorem mem_erase {a : Nat} {m : Memory} {c : Host.Cell} (h : c ∈ memErase a m) : c ∈ m := by
  induction m with
  | nil => simp [memErase] at h
  | cons d m ih =>
    obtain ⟨k, w⟩ := d
    simp only [memErase] at h
    split at h
    · exact List.mem_cons_of_mem _ (ih h)
    · rcases List.mem_cons.1 h with h | h
      · exact h ▸ List.mem_cons_self
      · exact List.mem_cons_of_mem _ (ih h)

theorem mem_insert {a : Nat} {v : Byte} {m : Memory} {c : Host.Cell} (h : c ∈ memInsert a v m) :
    c = (a, v) ∨ c ∈ m := by
  induction m with
  | nil => left; simpa [memInsert] using h
  | cons d m ih =>
    obtain ⟨k, w⟩ := d
    simp only [memInsert] at h
    split at h
    · exact List.mem_cons.1 h
    · split at h
      · rcases List.mem_cons.1 h with h | h
        · exact .inl h
        · exact .inr (List.mem_cons_of_mem _ h)
      · rcases List.mem_cons.1 h with h | h
        · exact .inr (h ▸ List.mem_cons_self)
        · exact (ih h).imp id (List.mem_cons_of_mem _)

theorem erase_sorted (a : Nat) (m : Memory) (h : m.Pairwise (fun c d => c.1 < d.1)) :
    (memErase a m).Pairwise (fun c d => c.1 < d.1) := by
  induction m with
  | nil => exact h
  | cons d m ih =>
    obtain ⟨k, w⟩ := d
    rw [List.pairwise_cons] at h
    simp only [memErase]
    split
    · exact ih h.2
    · exact List.pairwise_cons.2 ⟨fun c hc => h.1 c (mem_erase hc), ih h.2⟩

theorem insert_sorted (a : Nat) (v : Byte) (m : Memory) (h : m.Pairwise (fun c d => c.1 < d.1)) :
    (memInsert a v m).Pairwise (fun c d => c.1 < d.1) := by
  induction m with
  | nil => simp [memInsert]
  | cons d m ih =>
    obtain ⟨k, w⟩ := d
    have h' := List.pairwise_cons.1 h
    simp only [memInsert]
    split
    · rename_i hlt
      refine List.pairwise_cons.2 ⟨fun c hc => ?_, h⟩
      rcases List.mem_cons.1 hc with rfl | hc
      · exact hlt
      · exact lt_trans hlt (h'.1 c hc)
    · split
      · rename_i heq
        subst heq
        exact List.pairwise_cons.2 ⟨h'.1, h'.2⟩
      · refine List.pairwise_cons.2 ⟨fun c hc => ?_, ih h'.2⟩
        rcases mem_insert hc with rfl | hc
        · show k < a; omega
        · exact h'.1 c hc

/-- A write to one of the 4096 cells keeps the canonical form. -/
theorem memWrite_wf (cfg : Config) (m : Memory) (a : Nat) (v : Byte) (ha : a < 4096)
    (h : m.wf cfg) : (memWrite cfg m a v).wf cfg := by
  unfold memWrite
  split
  · exact ⟨erase_sorted a m h.1, fun c hc => h.2 c (mem_erase hc)⟩
  · rename_i hv
    refine ⟨insert_sorted a v m h.1, fun c hc => ?_⟩
    rcases mem_insert hc with rfl | hc
    · exact ⟨ha, hv⟩
    · exact h.2 c hc

/-- Nothing listed is canonical. -/
theorem nil_wf (cfg : Config) : Memory.wf cfg [] := ⟨List.Pairwise.nil, fun _ h => by simp at h⟩

theorem readByte_eq (s : State) (a : Word) : s.readByte a = memRead s.cfg s.mem (a.toNat % 4096) := by
  simp [State.readByte]

theorem readByte_indexed (s : State) (k : Nat) :
    s.readByte (s.indexed k) = memRead s.cfg s.mem ((s.idx.toNat + k) % 4096) := by
  rw [State.readByte, State.indexed, cellOf_add]

/-- `MemRead(addr, 2)`: the byte at `addr`, then the byte after it modulo 4096 (R52). -/
theorem readWord_eq (s : State) (a : Word) :
    s.readWord a =
      memRead s.cfg s.mem (a.toNat % 4096) ++ memRead s.cfg s.mem ((a.toNat + 1) % 4096) := by
  rw [State.readWord, readByte_eq, State.readByte, show a + 1 = a + BitVec.ofNat 16 1 from rfl, cellOf_add]

/-- A run of byte writes changes memory alone. -/
theorem writeBytes_frame (s : State) (a : Word) (bs : List Byte) :
    s.writeBytes a bs = { s with mem := (s.writeBytes a bs).mem } := by
  induction bs generalizing s a with
  | nil => rfl
  | cons b bs ih => rw [State.writeBytes, ih]; rfl

/-- Cells outside a run of byte writes keep their bytes. -/
theorem memRead_writeBytes_other (s : State) (a : Word) (bs : List Byte) (c : Nat)
    (h : ∀ k, k < bs.length → c ≠ (a.toNat + k) % 4096) :
    memRead s.cfg (s.writeBytes a bs).mem c = memRead s.cfg s.mem c := by
  induction bs generalizing s a with
  | nil => rfl
  | cons b bs ih =>
    rw [State.writeBytes]
    have h0 : c ≠ (a.toNat + 0) % 4096 := h 0 (by simp)
    have := ih (s.writeByte a b) (a + 1) (fun k hk => by
      have := h (k + 1) (by simpa using hk)
      rw [BitVec.toNat_add]; simp; omega)
    simp only [State.writeByte_cfg, State.writeByte_mem] at this
    rw [this, memRead_write, if_neg]
    simpa using h0

/-- The k-th byte of a run of at most 4096 byte writes stands k cells after its start (R55, R52). -/
theorem memRead_writeBytes (s : State) (a : Word) (bs : List Byte) (hl : bs.length ≤ 4096)
    (k : Nat) (hk : k < bs.length) :
    memRead s.cfg (s.writeBytes a bs).mem ((a.toNat + k) % 4096) = bs[k] := by
  induction bs generalizing s a k with
  | nil => simp at hk
  | cons b bs ih =>
    rw [State.writeBytes]
    simp only [List.length_cons] at hl hk
    cases k with
    | zero =>
      have := memRead_writeBytes_other (s.writeByte a b) (a + 1) bs ((a.toNat + 0) % 4096) (fun k hk => by
        rw [BitVec.toNat_add]; simp; omega)
      simp only [State.writeByte_cfg, State.writeByte_mem] at this
      rw [this, memRead_write, if_pos (by simp)]
      rfl
    | succ k =>
      have := ih (s.writeByte a b) (a + 1) (by omega) k (by omega)
      simp only [State.writeByte_cfg] at this
      rw [List.getElem_cons_succ, ← this]
      congr 1
      rw [BitVec.toNat_add]; simp; omega

/-- Everything a run of at most 4096 byte writes does to a cell: the cell at distance j above the start, modulo 4096, holds
the j-th byte where there is one, and its old byte otherwise (R55, R52). -/
theorem memRead_writeBytes_eq (s : State) (a : Word) (bs : List Byte) (hl : bs.length ≤ 4096) (c : Nat)
    (hc : c < 4096) :
    memRead s.cfg (s.writeBytes a bs).mem c =
      (bs[(c + 4096 - a.toNat % 4096) % 4096]?).getD (memRead s.cfg s.mem c) := by
  by_cases h : (c + 4096 - a.toNat % 4096) % 4096 < bs.length
  · rw [List.getElem?_eq_getElem h, Option.getD_some, ← memRead_writeBytes s a bs hl _ h]
    congr 1
    omega
  · rw [List.getElem?_eq_none (not_lt.1 h), Option.getD_none]
    refine memRead_writeBytes_other s a bs c fun k hk he => h ?_
    omega

/-- A run of byte writes keeps the canonical form. -/
theorem writeBytes_wf (s : State) (a : Word) (bs : List Byte) (h : s.mem.wf s.cfg) :
    (s.writeBytes a bs).mem.wf s.cfg := by
  induction bs generalizing s a with
  | nil => exact h
  | cons b bs ih =>
    exact ih (s.writeByte a b) (a + 1) (memWrite_wf _ _ _ _ (cellOf_lt a) h)

end Sys2Proof.Machine
end

