-- ==== Sys2Proof/Laws/Ops.lean ====
section
/-! SUPPORT. One spec lemma per shared operation: registers, stack, skip, block load, framebuffer, sprite drawing. -/

namespace Sys2Proof.Machine

open Sys2Proof

/-! ### Registers -/

theorem getV_setV (s : State) (x r : Nib) (b : Byte) :
    (s.setV x b).getV r = if r = x then b else s.getV r := by
  simp only [State.getV, State.setV, Vector.getElem_set, BitVec.toNat_inj]
  simp [eq_comm]

@[simp] theorem getV_setV_self (s : State) (x : Nib) (b : Byte) : (s.setV x b).getV x = b := by
  simp [getV_setV]

theorem getV_setV_ne (s : State) {x r : Nib} (b : Byte) (h : r ≠ x) : (s.setV x b).getV r = s.getV r := by
  simp [getV_setV, h]

/-- Two register files that read alike are equal. -/
theorem v_ext {s t : State} (h : ∀ r, t.getV r = s.getV r) : t.v = s.v := by
  apply Vector.ext
  intro k hk
  have := h (BitVec.ofNat 4 k)
  simpa [State.getV, Nat.mod_eq_of_lt hk] using this

/-- A result and then a flag (R123): the flag stands in VF, the result in any other destination. -/
theorem setVFlag_spec (s : State) (x : Nib) (b f : Byte) :
    s.setVFlag x b f = { s with v := (s.setVFlag x b f).v } ∧
      (x ≠ 15#4 → (s.setVFlag x b f).getV x = b) ∧ (s.setVFlag x b f).getV 15#4 = f ∧
      ∀ r, r ≠ x → r ≠ 15#4 → (s.setVFlag x b f).getV r = s.getV r := by
  refine ⟨rfl, fun h => ?_, ?_, fun r h1 h2 => ?_⟩
  · simp [State.setVFlag, getV_setV, regF, h]
  · simp [State.setVFlag, regF]
  · simp [State.setVFlag, getV_setV, regF, h1, h2]

theorem getV_loadRegs (s : State) (n : Nat) (r : Nib) :
    (s.loadRegs n).getV r =
      if r.toNat < n then memRead s.cfg s.mem ((s.idx.toNat + r.toNat) % 4096) else s.getV r := by
  simp [State.getV, State.loadRegs, State.loadedRegs, readByte_indexed]

/-! ### Skip -/

theorem skipIf_spec (s : State) (c : Bool) :
    s.skipIf c = { s with pc := (s.skipIf c).pc } ∧
      (s.skipIf c).pc.toNat = if c = true then (s.pc.toNat + 2) % 4096 else s.pc.toNat := by
  cases c
  · exact ⟨rfl, rfl⟩
  · exact ⟨rfl, advancePc_toNat s.pc⟩

/-! ### Call stack -/

theorem slot_set (s : State) (j : Nat) (h : j < 16) (w : Word) (k : Nat) :
    State.slot { s with stack := s.stack.set j w h } k = if k = j + 1 then w else s.slot k := by
  cases k with
  | zero => simp [State.slot]
  | succ k =>
    simp only [State.slot, Nat.add_right_cancel_iff, Vector.getElem?_set]
    by_cases hk : j = k
    · subst hk; simp
    · simp [hk, Ne.symm hk]

/-- Push (R24): below capacity one more frame, its slot holding the value, every other slot as before. -/
theorem push_some (s : State) (w : Word) (h : s.sp.val < 16) :
    ∃ t, s.push w = some t ∧ t = { s with sp := t.sp, stack := t.stack } ∧
      t.sp.val = s.sp.val + 1 ∧ t.slot t.sp.val = w ∧ ∀ k, k ≠ t.sp.val → t.slot k = s.slot k := by
  refine ⟨_, dif_pos h, rfl, rfl, ?_, fun k hk => ?_⟩
  · exact (slot_set s s.sp.val h w _).trans (if_pos rfl)
  · exact (slot_set s s.sp.val h w k).trans (if_neg hk)

/-- At capacity nothing is pushed (R24). -/
theorem push_none (s : State) (w : Word) (h : s.sp.val = 16) : s.push w = none :=
  dif_neg (by omega)

/-- Pop (R24): reads, then decrements; no slot changes. -/
theorem pop_some (s : State) (h : 0 < s.sp.val) :
    ∃ t, s.pop = some (s.slot s.sp.val, t) ∧ t = { s with sp := t.sp } ∧ t.sp.val + 1 = s.sp.val := by
  refine ⟨_, if_neg (by omega), rfl, ?_⟩
  show s.sp.val - 1 + 1 = s.sp.val
  omega

theorem pop_none (s : State) (h : s.sp.val = 0) : s.pop = none := if_pos h

/-! ### Framebuffer -/

theorem pixel_flipPixel (s : State) (y y' : Fin 32) (x x' : Fin 64) :
    (s.flipPixel y x).pixel y' x' = (s.pixel y' x' ^^ (decide (y' = y) && decide (x' = x))) := by
  unfold State.pixel State.flipPixel
  by_cases hy : y' = y
  · subst hy
    simp [Fin.ext_iff, eq_comm]
  · have : y.val ≠ y'.val := fun h => hy (Fin.ext h).symm
    simp [Vector.getElem_set_ne, this, hy]

@[simp] theorem pixel_setV (s : State) (x : Nib) (b : Byte) (py : Fin 32) (px : Fin 64) :
    (s.setV x b).pixel py px = s.pixel py px := rfl

@[simp] theorem getV_flipPixel (s : State) (y : Fin 32) (x : Fin 64) (r : Nib) :
    (s.flipPixel y x).getV r = s.getV r := rfl

/-- Two framebuffers whose pixels agree are equal. -/
theorem fb_ext {s t : State} (h : ∀ y x, t.pixel y x = s.pixel y x) : t.fb = s.fb := by
  apply Vector.ext
  intro y hy
  apply BitVec.eq_of_getLsbD_eq
  intro x hx
  exact h ⟨y, hy⟩ ⟨x, hx⟩

/-- One 1 bit of a sprite (R151). -/
theorem drawPixel_spec (s : State) (y : Fin 32) (x : Fin 64) :
    s.drawPixel y x = { s with v := (s.drawPixel y x).v, fb := (s.drawPixel y x).fb } ∧
      (∀ y' x', (s.drawPixel y x).pixel y' x' = (s.pixel y' x' ^^ (decide (y' = y) && decide (x' = x)))) ∧
      ∀ r, (s.drawPixel y x).getV r = if r = 15#4 ∧ s.pixel y x = true then 1 else s.getV r := by
  unfold State.drawPixel
  by_cases h : s.pixel y x = true
  · rw [if_pos h]
    refine ⟨rfl, fun y' x' => pixel_flipPixel _ y y' x x', fun r => ?_⟩
    rw [getV_flipPixel, getV_setV]
    by_cases hr : r = 15#4 <;> simp [h, regF, hr]
  · rw [if_neg h]
    exact ⟨rfl, fun y' x' => pixel_flipPixel s y y' x x', fun r => by rw [if_neg (by simp [h])]; rfl⟩

/-- A drawing phase from `s` to `t` that has XORed exactly the cells of `p`: the frame, the pixels, and VF latched to 1
when a cell of `p` was lit (R151). -/
structure Drawn (s t : State) (p : Fin 32 → Fin 64 → Bool) : Prop where
  frame : t = { s with v := t.v, fb := t.fb }
  pixels : ∀ y x, t.pixel y x = (s.pixel y x ^^ p y x)
  flagOn : (∃ y x, s.pixel y x = true ∧ p y x = true) → t.getV 15#4 = 1
  flagOff : (¬∃ y x, s.pixel y x = true ∧ p y x = true) → t.getV 15#4 = s.getV 15#4
  others : ∀ r, r ≠ 15#4 → t.getV r = s.getV r

theorem Drawn.refl (s : State) : Drawn s s (fun _ _ => false) :=
  ⟨rfl, fun _ _ => by simp, fun ⟨_, _, _, h⟩ => by simp at h, fun _ => rfl, fun _ _ => rfl⟩

/-- Two phases on disjoint cells make one phase on their union. -/
theorem Drawn.trans {s t u : State} {p q : Fin 32 → Fin 64 → Bool} (h : Drawn s t p) (g : Drawn t u q)
    (disj : ∀ y x, p y x = true → q y x = false) : Drawn s u (fun y x => p y x || q y x) := by
  have key : ∀ y x, q y x = true → t.pixel y x = s.pixel y x := by
    intro y x hq
    rw [h.pixels]
    cases hp : p y x
    · simp
    · simp [disj y x hp] at hq
  refine ⟨?_, fun y x => ?_, ?_, fun hn => ?_, fun r hr => (g.others r hr).trans (h.others r hr)⟩
  · rw [g.frame, h.frame]
  · rw [g.pixels, h.pixels]
    have := disj y x
    cases hp : p y x <;> cases hq : q y x <;> cases s.pixel y x <;> simp_all
  · rintro ⟨y, x, h1, h2⟩
    by_cases hq : ∃ y x, t.pixel y x = true ∧ q y x = true
    · exact g.flagOn hq
    · rw [g.flagOff hq]
      refine h.flagOn ⟨y, x, h1, ?_⟩
      rcases Bool.or_eq_true _ _ ▸ h2 with h2 | h2
      · exact h2
      · exact absurd ⟨y, x, by rw [key y x h2]; exact h1, h2⟩ hq
  · rw [g.flagOff, h.flagOff]
    · rintro ⟨y, x, h1, h2⟩; exact hn ⟨y, x, h1, by simp [h2]⟩
    · rintro ⟨y, x, h1, h2⟩; exact hn ⟨y, x, by rw [← key y x h2]; exact h1, by simp [h2]⟩

theorem Drawn.congr {s t : State} {p q : Fin 32 → Fin 64 → Bool} (h : Drawn s t p)
    (e : ∀ y x, p y x = q y x) : Drawn s t q := by
  have : p = q := by funext y x; exact e y x
  exact this ▸ h

theorem drawPixel_drawn (s : State) (y : Fin 32) (x : Fin 64) :
    Drawn s (s.drawPixel y x) (fun y' x' => decide (y' = y) && decide (x' = x)) := by
  obtain ⟨h1, h2, h3⟩ := drawPixel_spec s y x
  refine ⟨h1, h2, ?_, fun hn => ?_, fun r hr => by rw [h3]; simp [hr]⟩
  · rintro ⟨y', x', h1, h2⟩
    simp only [Bool.and_eq_true, decide_eq_true_eq] at h2
    rw [h2.1, h2.2] at h1
    rw [h3, if_pos ⟨rfl, h1⟩]
  · rw [h3, if_neg]
    rintro ⟨-, h⟩
    exact hn ⟨y, x, h, by simp⟩

/-- The bit of the first n columns of a sprite row, drawn from column ox of screen row y, that falls on a cell: the cell's
column inside the sprite is its distance from ox modulo 64 (R151). -/
def rowBit (b : Byte) (y : Fin 32) (ox n : Nat) (y' : Fin 32) (x' : Fin 64) : Bool :=
  decide (y' = y) && decide ((x'.val + 64 - ox) % 64 < n) && b.getLsbD (7 - (x'.val + 64 - ox) % 64)

theorem drawRow_cols (s : State) (b : Byte) (y : Fin 32) (ox n : Nat) (ho : ox < 64) (hn : n ≤ 8) :
    Drawn s ((List.range n).foldl
      (fun t col => if b.getLsbD (7 - col) then t.drawPixel y (Fin.ofNat 64 (ox + col)) else t) s)
      (rowBit b y ox n) := by
  induction n with
  | zero => exact (Drawn.refl s).congr (by simp [rowBit])
  | succ n ih =>
    rw [List.range_succ, List.foldl_append]
    have ih := ih (by omega)
    simp only [List.foldl_cons, List.foldl_nil]
    have col : ∀ x' : Fin 64, x' = Fin.ofNat 64 (ox + n) ↔ (x'.val + 64 - ox) % 64 = n := by
      intro x'
      have := x'.isLt
      simp only [Fin.ext_iff, Fin.ofNat]
      omega
    split
    · rename_i hb
      refine (ih.trans (drawPixel_drawn _ y _) ?_).congr ?_
      · intro y' x' hp
        simp only [rowBit, Bool.and_eq_true, decide_eq_true_eq] at hp
        rw [Bool.and_eq_false_iff]
        right
        rw [decide_eq_false_iff_not, col]
        omega
      · intro y' x'
        rw [Bool.eq_iff_iff]
        simp only [rowBit, Bool.or_eq_true, Bool.and_eq_true, decide_eq_true_eq, col]
        constructor
        · rintro (⟨⟨rfl, h1⟩, h2⟩ | ⟨rfl, h⟩)
          · exact ⟨⟨rfl, by omega⟩, h2⟩
          · exact ⟨⟨rfl, by omega⟩, by rw [h]; exact hb⟩
        · rintro ⟨⟨rfl, h1⟩, h2⟩
          rcases Nat.lt_succ_iff_lt_or_eq.1 h1 with h | h
          · exact .inl ⟨⟨rfl, h⟩, h2⟩
          · exact .inr ⟨rfl, h⟩
    · rename_i hb
      refine ih.congr fun y' x' => ?_
      rw [Bool.eq_iff_iff]
      simp only [rowBit, Bool.and_eq_true, decide_eq_true_eq]
      constructor
      · rintro ⟨⟨rfl, h1⟩, h2⟩; exact ⟨⟨rfl, by omega⟩, h2⟩
      · rintro ⟨⟨rfl, h1⟩, h2⟩
        rcases Nat.lt_succ_iff_lt_or_eq.1 h1 with h | h
        · exact ⟨⟨rfl, h⟩, h2⟩
        · rw [h] at h2; exact absurd h2 hb

/-- One row of a sprite (R151). -/
theorem drawRow_drawn (s : State) (b : Byte) (y : Fin 32) (ox : Nat) (ho : ox < 64) :
    Drawn s (s.drawRow b y ox) (rowBit b y ox 8) :=
  drawRow_cols s b y ox 8 ho (le_refl 8)

/-- A sprite of at most 32 rows (R151): the cells XORed are those on which a 1 bit of the sprite falls; the cell's row
inside the sprite is its distance from oy modulo 32. -/
theorem drawSprite_drawn (s : State) (ox oy n : Nat) (hx : ox < 64) (hy : oy < 32) (hn : n ≤ 32) :
    Drawn s (s.drawSprite ox oy n) (fun y x => decide ((y.val + 32 - oy) % 32 < n) &&
      decide ((x.val + 64 - ox) % 64 < 8) &&
      (s.readByte (s.indexed ((y.val + 32 - oy) % 32))).getLsbD (7 - (x.val + 64 - ox) % 64)) := by
  unfold State.drawSprite
  induction n with
  | zero => exact (Drawn.refl s).congr (by simp)
  | succ n ih =>
    rw [List.range_succ, List.foldl_append]
    have ih := ih (by omega)
    simp only [List.foldl_cons, List.foldl_nil]
    generalize hg : (List.range n).foldl
      (fun t row => t.drawRow (t.readByte (t.indexed row)) (Fin.ofNat 32 (oy + row)) ox) s = t at ih ⊢
    have hb : t.readByte (t.indexed n) = s.readByte (s.indexed n) := by rw [ih.frame]; rfl
    have row : ∀ y : Fin 32, y = Fin.ofNat 32 (oy + n) ↔ (y.val + 32 - oy) % 32 = n := by
      intro y
      have := y.isLt
      simp only [Fin.ext_iff, Fin.ofNat]
      omega
    rw [hb]
    refine (ih.trans (drawRow_drawn _ _ _ _ hx) ?_).congr ?_
    · intro y x hp
      simp only [Bool.and_eq_true, decide_eq_true_eq] at hp
      rw [rowBit, Bool.and_assoc, Bool.and_eq_false_iff]
      left
      rw [decide_eq_false_iff_not, row]
      omega
    · intro y x
      rw [Bool.eq_iff_iff]
      simp only [rowBit, Bool.or_eq_true, Bool.and_eq_true, decide_eq_true_eq, row]
      constructor
      · rintro (⟨⟨h1, h2⟩, h3⟩ | ⟨⟨h1, h2⟩, h3⟩)
        · exact ⟨⟨by omega, h2⟩, h3⟩
        · exact ⟨⟨by omega, h2⟩, by rw [h1]; exact h3⟩
      · rintro ⟨⟨h1, h2⟩, h3⟩
        rcases Nat.lt_succ_iff_lt_or_eq.1 h1 with h | h
        · exact .inl ⟨⟨h, h2⟩, h3⟩
        · exact .inr ⟨⟨h, h2⟩, by rw [← h]; exact h3⟩

end Sys2Proof.Machine
end

