-- ==== Sys2Proof/Laws/Step.lean ====
section
/-! SUPPORT. What one micro-step does, by where the core stands (45_timers_pacing R180, R181), and what a run of them is. -/

namespace Sys2Proof.Machine

open Sys2Proof

theorem step_cycles {s : State} {k : Nat} {e : Rat} (h : s.activity = .cycles (k + 1) e) :
    step s = cycleAttempt { s with activity := .cycles k e } := by
  rw [step, microStep, h]

theorem step_endCycles {s : State} {e : Rat} (h : s.activity = .cycles 0 e) :
    step s = .next (s.endCycles e) := by
  rw [step, microStep, h]

theorem step_ticks {s : State} (h : s.activity = .ticks) : step s = .next s.tickTurn := by
  rw [step, microStep, h]

theorem step_idle {s : State} (h : s.activity = .idle) (hi : s.inbox = []) : step s = .next s := by
  rw [step, microStep, h, hi]

theorem step_hostOp {s : State} {op : HostOp} {rest : List HostOp} (h : s.activity = .idle)
    (hi : s.inbox = op :: rest) : step s = .next (hostOp op (s.takeOp rest)) := by
  rw [step, microStep, h, hi]

theorem cycleAttempt_waiting {s : State} {r : Nib} (h : s.wait = some r) : cycleAttempt s = .next s := by
  rw [cycleAttempt, h]

theorem cycleAttempt_running {s : State} (h : s.wait = none) : cycleAttempt s = cycle s := by
  rw [cycleAttempt, h]

/-- A cycle attempt outside the key-wait state (R181). -/
theorem step_running {s : State} {k : Nat} {e : Rat} (h : s.activity = .cycles (k + 1) e) (hw : s.wait = none) :
    step s = cycle { s with activity := .cycles k e } :=
  (step_cycles h).trans (cycleAttempt_running hw)

/-- A cycle attempt in the key-wait state (R181). -/
theorem step_waiting {s : State} {k : Nat} {e : Rat} {r : Nib} (h : s.activity = .cycles (k + 1) e)
    (hw : s.wait = some r) : step s = .next { s with activity := .cycles k e } :=
  (step_cycles h).trans (cycleAttempt_waiting hw)

theorem cycle_decoded {s : State} {i : Instr} (h : decodeWord s.fetchWord = some i) :
    cycle s = exec i s.afterFetch := by
  rw [cycle, h]

theorem cycle_unrecognised {s : State} (h : decodeWord s.fetchWord = none) :
    cycle s = execUnrecognised s.fetchWord s.afterFetch := by
  rw [cycle, h]

theorem fetchWord_eq (s : State) : s.fetchWord =
    memRead s.cfg s.mem (s.pc.toNat % 4096) ++ memRead s.cfg s.mem ((s.pc.toNat + 1) % 4096) :=
  readWord_eq s s.pc

/-- One step of a run that goes on, for any machine of the host's interface. -/
theorem coreRun_next {M : Host.Core} {s t : M.State} (h : M.step s = .next t) (n : Nat) :
    M.run (n + 1) s = M.run n t := by
  rw [Host.Core.run, h]

/-- Runs compose, for any machine of the host's interface. -/
theorem coreRun_add {M : Host.Core} {s t : M.State} {m : Nat} (h : M.run m s = .next t) (n : Nat) :
    M.run (m + n) s = M.run n t := by
  induction m generalizing s with
  | zero =>
    rw [Host.Core.run] at h
    cases h
    rw [Nat.zero_add]
  | succ m ih =>
    rw [Host.Core.run] at h
    cases hs : M.step s with
    | next u =>
      rw [hs] at h
      rw [Nat.add_right_comm, coreRun_next hs]
      exact ih h
    | fault f => rw [hs] at h; cases h
    | refused r => rw [hs] at h; cases h

/-- One step of a run of the core. -/
theorem run_next {s t : State} (h : step s = .next t) (n : Nat) :
    Host.Core.run Sys2Proof.core (n + 1) s = Host.Core.run Sys2Proof.core n t :=
  coreRun_next (M := Sys2Proof.core) h n

/-- Runs of the core compose. -/
theorem run_add {s t : State} {m : Nat} (h : Host.Core.run Sys2Proof.core m s = .next t) (n : Nat) :
    Host.Core.run Sys2Proof.core (m + n) s = Host.Core.run Sys2Proof.core n t :=
  coreRun_add (M := Sys2Proof.core) h n

end Sys2Proof.Machine
end

