-- ==== Sys2Proof/Laws/HostOps.lean ====
section
/-! SUPPORT. One spec lemma per host operation (70_reset_and_hazards R230 to R241, 44_input R163, 45_timers_pacing R178,
R180): where it starts, and what it leaves. -/

namespace Sys2Proof.Machine

open Sys2Proof

/-- The next host operation of the list is started on the state with nothing returned yet (R241). -/
theorem step_inbox {s : State} {op : HostOp} {rest : List HostOp} (h : s.activity = .idle) :
    step { s with inbox := op :: rest } = .next (hostOp op { s with inbox := rest, output := .empty }) :=
  step_hostOp (s := { s with inbox := op :: rest }) h rfl

theorem takeOp_eq (s : State) (rest : List HostOp) : s.takeOp rest = { s with inbox := rest, output := .empty } := rfl

/-! ### Loading -/

/-- A run of byte writes depends on memory and on the parameters alone. -/
theorem writeBytes_mem_congr {s t : State} (hc : s.cfg = t.cfg) (hm : s.mem = t.mem) (a : Word) (bs : List Byte) :
    (s.writeBytes a bs).mem = (t.writeBytes a bs).mem := by
  induction bs generalizing s t a with
  | nil => exact hm
  | cons b bs ih => exact ih (s := s.writeByte a b) (t := t.writeByte a b) hc (by simp [hc, hm]) _

/-- The loading phase (R233): memory, the snapshot and the load flags alone change. -/
theorem placeRom_eq (s : State) (bytes : List Byte) :
    s.placeRom bytes = { s with
      mem := (s.writeBytes 0x200 (bytes.take romMax)).mem
      rom := bytes.take romMax
      everLoaded := true
      romLoaded := true } := by
  rw [State.placeRom, writeBytes_frame]

/-- `LOAD` of a sequence that fits: no report (R205, R233). -/
theorem load_fits (s : State) {bytes : List Byte} (h : bytes.length ≤ romMax) :
    s.load bytes = s.reinit.placeRom bytes := if_neg (by omega)

/-- `LOAD` of a longer sequence: the report follows the loading (R205, R233). -/
theorem load_long (s : State) {bytes : List Byte} (h : romMax < bytes.length) :
    s.load bytes = (s.reinit.placeRom bytes).report (.romtrunc bytes.length) := if_pos h

/-- Everything `LOAD` does (R205, R233): the reset state but for memory, the snapshot, the load flags, and the report of a
sequence that does not fit. -/
theorem load_eq (s : State) (bytes : List Byte) :
    s.load bytes = { s.reinit with
      mem := (s.reinit.writeBytes 0x200 (bytes.take romMax)).mem
      rom := bytes.take romMax
      everLoaded := true
      romLoaded := true
      err := if romMax < bytes.length then 0b1000 else 0
      output := if romMax < bytes.length
        then { s.output with reports := s.output.reports ++ [.romtrunc bytes.length] } else s.output } := by
  by_cases h : romMax < bytes.length
  · rw [load_long s h, placeRom_eq, if_pos h, if_pos h]
    simp [State.report, Report.errBit]
  · rw [load_fits s (not_lt.1 h), placeRom_eq, if_neg h, if_neg h]
    rfl

/-- The loading phase keeps the canonical form of memory. -/
theorem placeRom_wf (s : State) (bytes : List Byte) (h : s.mem.wf s.cfg) : (s.placeRom bytes).mem.wf s.cfg := by
  rw [placeRom_eq]
  exact writeBytes_wf s 0x200 _ h

/-! ### Keys -/

theorem key_set (s t : State) (k : Nib) (p : Bool) (h : t.keys = s.keys.set k.toNat p k.isLt) (j : Nib) :
    t.key j = if j = k then p else s.key j := by
  simp only [State.key, h, Vector.getElem_set, BitVec.toNat_inj]
  simp [eq_comm]

/-- A press with a wait pending resolves it (R163). -/
theorem setKeyNib_resolves {s : State} {r : Nib} (h : s.wait = some r) (k : Nib) :
    s.setKeyNib k true = { s with
      keys := s.keys.set k.toNat true k.isLt
      v := s.v.set r.toNat (k.setWidth 8) r.isLt
      wait := none } := by
  unfold State.setKeyNib
  split
  · rename_i r' hr
    rw [h] at hr
    cases hr
    rfl
  · rename_i hn
    exact absurd h (hn r rfl)

/-- A release, or a press with no wait pending, changes `KEY` alone (R163). -/
theorem setKeyNib_other {s : State} {p : Bool} (h : s.wait = none ∨ p = false) (k : Nib) :
    s.setKeyNib k p = { s with keys := s.keys.set k.toNat p k.isLt } := by
  rcases h with h | rfl
  · cases p <;> unfold State.setKeyNib <;> split <;> simp_all
  · rfl

/-- An index outside 0..15 is ignored, any other is the key of that number (R163). -/
theorem setKey_eq (s : State) (k : Nib) (p : Bool) : s.setKey (k.toNat : Int) p = s.setKeyNib k p := by
  have := k.isLt
  rw [State.setKey, if_neg (by omega)]
  simp

/-! ### Pacing -/

theorem clampElapsed_nonneg (e : Rat) : 0 ≤ clampElapsed e := by
  rw [clampElapsed]
  split
  · exact le_refl 0
  · exact not_lt.1 ‹_›

theorem clampElapsed_of_nonneg {e : Rat} (h : 0 ≤ e) : clampElapsed e = e := if_neg (not_lt.2 h)

theorem attemptCount_pos (cfg : Config) (e : Rat) : 1 ≤ attemptCount cfg e := le_max_left _ _

theorem beginAdvance_loaded {s : State} (h : s.romLoaded = true) (e : Rat) :
    s.beginAdvance e =
      { s with activity := .cycles (attemptCount s.cfg (clampElapsed e)) (clampElapsed e) } := if_pos h

theorem beginAdvance_unloaded {s : State} (h : s.romLoaded = false) (e : Rat) : s.beginAdvance e = s :=
  if_neg (by simp [h])

theorem countDown_toNat (b : Byte) : (countDown b).toNat = b.toNat - 1 := by
  unfold countDown
  split
  · rename_i h; rw [h]; rfl
  · rename_i h
    have h0 : b.toNat ≠ 0 := fun h' => h (BitVec.eq_of_toNat_eq h')
    have := b.isLt
    rw [BitVec.toNat_sub]
    simp
    omega

theorem tickTurn_tick {s : State} (h : tickMs ≤ s.acc) :
    s.tickTurn = { s with dt := countDown s.dt, st := countDown s.st, acc := s.acc - tickMs } := if_pos h

theorem tickTurn_done {s : State} (h : s.acc < tickMs) : s.tickTurn = { s with activity := .idle } :=
  if_neg (not_le.2 h)

/-- k ticks: each timer k lower, floored at 0 (R178). -/
theorem timerTicks_spec (k : Nat) (s : State) :
    State.timerTicks k s =
        { s with dt := (State.timerTicks k s).dt, st := (State.timerTicks k s).st } ∧
      (State.timerTicks k s).dt.toNat = s.dt.toNat - k ∧ (State.timerTicks k s).st.toNat = s.st.toNat - k := by
  induction k generalizing s with
  | zero => exact ⟨rfl, rfl, rfl⟩
  | succ k ih =>
    obtain ⟨h1, h2, h3⟩ := ih s.timerTick
    rw [State.timerTicks]
    refine ⟨?_, ?_, ?_⟩
    · rw [h1]; rfl
    · rw [h2, State.timerTick_dt, countDown_toNat]; omega
    · rw [h3, State.timerTick_st, countDown_toNat]; omega

/-- Attempts of a waiting core change nothing (R181). -/
theorem runAttempts_waiting {s : State} {r : Nib} (h : s.wait = some r) (n : Nat) : runAttempts n s = .next s := by
  induction n with
  | zero => rfl
  | succ n ih => rw [runAttempts, cycleAttempt_waiting h]; exact ih

end Sys2Proof.Machine
end

