-- ==== Sys2Proof/Laws/Activity.lean ====
section
/-! SUPPORT. No instruction looks at its place in the `ADVANCE` that runs it (45_timers_pacing R180): a cycle attempt
started elsewhere does the same and stays there. -/

namespace Sys2Proof.Machine

open Sys2Proof

/-- The same state, standing elsewhere in the host operation in progress. -/
def State.at (s : State) (a : Activity) : State := { s with activity := a }

/-- The same outcome, standing elsewhere. -/
def resultAt (a : Activity) : Result → Result
  | .next t => .next (t.at a)
  | .fault f => .fault f
  | .refused r => .refused r

theorem writeBytes_at (s : State) (a : Activity) (w : Word) (bs : List Byte) :
    (s.at a).writeBytes w bs = (s.writeBytes w bs).at a := by
  induction bs generalizing s w with
  | nil => rfl
  | cons b bs ih => exact ih (s.writeByte w b) (w + 1)

theorem drawPixel_at (s : State) (a : Activity) (y : Fin 32) (x : Fin 64) :
    (s.at a).drawPixel y x = (s.drawPixel y x).at a := by
  unfold State.drawPixel
  rw [show (s.at a).pixel y x = s.pixel y x from rfl]
  split <;> rfl

/-- Folds of operations that do not look at the activity do not look at it either. -/
theorem foldl_at (f : State → Nat → State) (a : Activity) (h : ∀ s n, f (s.at a) n = (f s n).at a) (l : List Nat)
    (s : State) : l.foldl f (s.at a) = (l.foldl f s).at a := by
  induction l generalizing s with
  | nil => rfl
  | cons n l ih => rw [List.foldl_cons, h, ih, List.foldl_cons]

theorem drawRow_at (s : State) (a : Activity) (b : Byte) (y : Fin 32) (ox : Nat) :
    (s.at a).drawRow b y ox = (s.drawRow b y ox).at a := by
  refine foldl_at _ a (fun t n => ?_) _ s
  split
  · exact drawPixel_at t a y _
  · rfl

theorem drawSprite_at (s : State) (a : Activity) (ox oy n : Nat) :
    (s.at a).drawSprite ox oy n = (s.drawSprite ox oy n).at a :=
  foldl_at _ a (fun t k => drawRow_at t a (t.readByte (t.indexed k)) (Fin.ofNat 32 (oy + k)) ox) _ s

theorem skipIf_at (s : State) (a : Activity) (c : Bool) : (s.at a).skipIf c = (s.skipIf c).at a := by
  cases c <;> rfl

theorem execRet_at (s : State) (a : Activity) : execRet (s.at a) = resultAt a (execRet s) := by
  by_cases h : s.sp.val = 0
  · rw [execRet, execRet, pop_none s h, pop_none (s.at a) h]
    rfl
  · rw [execRet, execRet, State.pop, State.pop, if_neg h, if_neg (by exact h)]
    rfl

theorem execCall_at (nnn : Addr) (s : State) (a : Activity) : execCall nnn (s.at a) = resultAt a (execCall nnn s) := by
  by_cases h : s.sp.val < 16
  · rw [execCall, execCall, State.push, State.push, dif_pos h, dif_pos (by exact h)]
    rfl
  · rw [execCall, execCall, State.push, State.push, dif_neg h, dif_neg (by exact h)]
    rfl

theorem execDrw_at (x y n : Nib) (s : State) (a : Activity) :
    execDrw x y n (s.at a) = resultAt a (execDrw x y n s) :=
  congrArg Host.Outcome.next (drawSprite_at (s.setV regF 0) a (s.originX x) (s.originY y) n.toNat)

theorem execLdB_at (x : Nib) (s : State) (a : Activity) : execLdB x (s.at a) = resultAt a (execLdB x s) :=
  congrArg Host.Outcome.next (writeBytes_at s a s.idx _)

theorem execStRegs_at (x : Nib) (s : State) (a : Activity) : execStRegs x (s.at a) = resultAt a (execStRegs x s) :=
  congrArg Host.Outcome.next (writeBytes_at s a s.idx _)

/-- An instruction does the same wherever the `ADVANCE` stands. -/
theorem exec_at (i : Instr) (s : State) (a : Activity) : exec i (s.at a) = resultAt a (exec i s) := by
  cases i
  case ret => exact execRet_at s a
  case call nnn => exact execCall_at nnn s a
  case drw x y n => exact execDrw_at x y n s a
  case ldB x => exact execLdB_at x s a
  case stRegs x => exact execStRegs_at x s a
  case seImm x nn => exact congrArg Host.Outcome.next (skipIf_at s a (s.getV x == nn))
  case sneImm x nn => exact congrArg Host.Outcome.next (skipIf_at s a (s.getV x != nn))
  case seReg x y => exact congrArg Host.Outcome.next (skipIf_at s a (s.getV x == s.getV y))
  case sneReg x y => exact congrArg Host.Outcome.next (skipIf_at s a (s.getV x != s.getV y))
  case skp x => exact congrArg Host.Outcome.next (skipIf_at s a (s.key (s.lowNibble x)))
  case sknp x => exact congrArg Host.Outcome.next (skipIf_at s a (!s.key (s.lowNibble x)))
  all_goals rfl

/-- A cycle attempt does the same wherever the `ADVANCE` stands. -/
theorem cycleAttempt_at (s : State) (a : Activity) : cycleAttempt (s.at a) = resultAt a (cycleAttempt s) := by
  cases hw : s.wait with
  | some r => rw [cycleAttempt_waiting hw, cycleAttempt_waiting (s := s.at a) hw]; rfl
  | none =>
    rw [cycleAttempt_running hw, cycleAttempt_running (s := s.at a) hw]
    cases hd : decodeWord s.fetchWord with
    | some i => rw [cycle_decoded hd, cycle_decoded (s := s.at a) hd]; exact exec_at i s.afterFetch a
    | none => rw [cycle_unrecognised hd, cycle_unrecognised (s := s.at a) hd]; rfl

end Sys2Proof.Machine
end

