-- ==== Sys2Proof/Laws/Encoding.lean ====
section
/-! SUPPORT. The bits of the three word layouts (30_encoding R72) and the fields the decoder reads from them. -/

namespace Sys2Proof

theorem wordNNN_bit (c : Nib) (nnn : Addr) (k : Nat) :
    (wordNNN c nnn).getLsbD k = if k < 12 then nnn.getLsbD k else c.getLsbD (k - 12) :=
  BitVec.getLsbD_append

theorem wordXNN_bit (c x : Nib) (nn : Byte) (k : Nat) :
    (wordXNN c x nn).getLsbD k =
      if k < 8 then nn.getLsbD k else if k - 8 < 4 then x.getLsbD (k - 8) else c.getLsbD (k - 8 - 4) := by
  rw [← BitVec.getLsbD_append (x := c) (y := x)]
  exact BitVec.getLsbD_append

theorem wordXYN_bit (c x y n : Nib) (k : Nat) :
    (wordXYN c x y n).getLsbD k =
      if k < 4 then n.getLsbD k else if k - 4 < 4 then y.getLsbD (k - 4)
      else if k - 4 - 4 < 4 then x.getLsbD (k - 4 - 4) else c.getLsbD (k - 4 - 4 - 4) := by
  rw [← BitVec.getLsbD_append (x := c) (y := x), ← BitVec.getLsbD_append (x := c ++ x) (y := y)]
  exact BitVec.getLsbD_append

@[simp] theorem fieldC_wordNNN (c : Nib) (nnn : Addr) : fieldC (wordNNN c nnn) = c := by
  apply BitVec.eq_of_getLsbD_eq
  intro k hk
  interval_cases k <;> simp [fieldC, BitVec.getLsbD_extractLsb', wordNNN_bit, -BitVec.getLsbD_eq_getElem]

@[simp] theorem fieldNNN_wordNNN (c : Nib) (nnn : Addr) : fieldNNN (wordNNN c nnn) = nnn := by
  apply BitVec.eq_of_getLsbD_eq
  intro k hk
  simp [fieldNNN, BitVec.getLsbD_extractLsb', wordNNN_bit, hk, -BitVec.getLsbD_eq_getElem]

@[simp] theorem fieldC_wordXNN (c x : Nib) (nn : Byte) : fieldC (wordXNN c x nn) = c := by
  apply BitVec.eq_of_getLsbD_eq
  intro k hk
  interval_cases k <;> simp [fieldC, BitVec.getLsbD_extractLsb', wordXNN_bit, -BitVec.getLsbD_eq_getElem]

@[simp] theorem fieldX_wordXNN (c x : Nib) (nn : Byte) : fieldX (wordXNN c x nn) = x := by
  apply BitVec.eq_of_getLsbD_eq
  intro k hk
  interval_cases k <;> simp [fieldX, BitVec.getLsbD_extractLsb', wordXNN_bit, -BitVec.getLsbD_eq_getElem]

@[simp] theorem fieldNN_wordXNN (c x : Nib) (nn : Byte) : fieldNN (wordXNN c x nn) = nn := by
  apply BitVec.eq_of_getLsbD_eq
  intro k hk
  simp [fieldNN, BitVec.getLsbD_extractLsb', wordXNN_bit, hk, -BitVec.getLsbD_eq_getElem]

@[simp] theorem fieldC_wordXYN (c x y n : Nib) : fieldC (wordXYN c x y n) = c := by
  apply BitVec.eq_of_getLsbD_eq
  intro k hk
  interval_cases k <;> simp [fieldC, BitVec.getLsbD_extractLsb', wordXYN_bit, -BitVec.getLsbD_eq_getElem]

@[simp] theorem fieldX_wordXYN (c x y n : Nib) : fieldX (wordXYN c x y n) = x := by
  apply BitVec.eq_of_getLsbD_eq
  intro k hk
  interval_cases k <;> simp [fieldX, BitVec.getLsbD_extractLsb', wordXYN_bit, -BitVec.getLsbD_eq_getElem]

@[simp] theorem fieldY_wordXYN (c x y n : Nib) : fieldY (wordXYN c x y n) = y := by
  apply BitVec.eq_of_getLsbD_eq
  intro k hk
  interval_cases k <;> simp [fieldY, BitVec.getLsbD_extractLsb', wordXYN_bit, -BitVec.getLsbD_eq_getElem]

@[simp] theorem fieldN_wordXYN (c x y n : Nib) : fieldN (wordXYN c x y n) = n := by
  apply BitVec.eq_of_getLsbD_eq
  intro k hk
  simp [fieldN, BitVec.getLsbD_extractLsb', wordXYN_bit, hk, -BitVec.getLsbD_eq_getElem]

theorem fieldC_toNat (w : Word) : (fieldC w).toNat = w.toNat / 4096 := by
  have := w.isLt
  simp [fieldC, BitVec.extractLsb'_toNat, Nat.shiftRight_eq_div_pow]
  omega

theorem fieldN_toNat (w : Word) : (fieldN w).toNat = w.toNat % 16 := by
  simp [fieldN, BitVec.extractLsb'_toNat]

theorem fieldNN_toNat (w : Word) : (fieldNN w).toNat = w.toNat % 256 := by
  simp [fieldNN, BitVec.extractLsb'_toNat]

theorem fieldNNN_eq (w : Word) : fieldNNN w = w.setWidth 12 := by
  apply BitVec.eq_of_toNat_eq
  simp [fieldNNN, BitVec.extractLsb'_toNat]

/-- A word is its class nibble and `NNN`. -/
theorem word_of_C_NNN (w : Word) : wordNNN (fieldC w) (fieldNNN w) = w := by
  apply BitVec.eq_of_getLsbD_eq
  intro k hk
  interval_cases k <;>
    simp [fieldC, fieldNNN, BitVec.getLsbD_extractLsb', wordNNN_bit, -BitVec.getLsbD_eq_getElem]

/-- A word is its class nibble, `X` and `NN`. -/
theorem word_of_C_X_NN (w : Word) : wordXNN (fieldC w) (fieldX w) (fieldNN w) = w := by
  apply BitVec.eq_of_getLsbD_eq
  intro k hk
  interval_cases k <;>
    simp [fieldC, fieldX, fieldNN, BitVec.getLsbD_extractLsb', wordXNN_bit, -BitVec.getLsbD_eq_getElem]

/-- A word is its four nibbles. -/
theorem word_of_nibbles (w : Word) : wordXYN (fieldC w) (fieldX w) (fieldY w) (fieldN w) = w := by
  apply BitVec.eq_of_getLsbD_eq
  intro k hk
  interval_cases k <;>
    simp [fieldC, fieldX, fieldY, fieldN, BitVec.getLsbD_extractLsb', wordXYN_bit, -BitVec.getLsbD_eq_getElem]

/-- Splitting a word into its bytes and joining them again changes nothing. -/
theorem wordOfBytes_split (w : Word) : wordOfBytes (w.extractLsb' 8 8) (w.extractLsb' 0 8) = w := by
  apply BitVec.eq_of_getLsbD_eq
  intro k hk
  have h := BitVec.getLsbD_append (x := w.extractLsb' 8 8) (y := w.extractLsb' 0 8) (i := k)
  refine Eq.trans h ?_
  interval_cases k <;> simp [BitVec.getLsbD_extractLsb', -BitVec.getLsbD_eq_getElem]

end Sys2Proof
end

