-- ==== Sys2Proof/Laws/PerInstr.lean ====
section
/-! SUPPORT. Per-instruction laws. TableRow: an instruction's word matches its row of the opcode map (30_encoding R74: "a
decoder takes the row with (op & mask) = match"). -/

namespace Sys2Proof.Laws.TableRow

open Sys2Proof

/-- The word of the instruction, under the mask of its row, is the row's match (R74, R75). -/
def Statement (i : Instr) : Prop := encode i &&& i.row.1 = i.row.2

theorem and_wordNNN (c : Nib) (nnn : Addr) (m v : Word)
    (h : ∀ k, k < 16 → ((if k < 12 then nnn.getLsbD k else c.getLsbD (k - 12)) && m.getLsbD k) = v.getLsbD k) :
    wordNNN c nnn &&& m = v := by
  apply BitVec.eq_of_getLsbD_eq
  intro k hk
  rw [BitVec.getLsbD_and, wordNNN_bit]
  exact h k hk

theorem and_wordXNN (c x : Nib) (nn : Byte) (m v : Word)
    (h : ∀ k, k < 16 → ((if k < 8 then nn.getLsbD k else if k - 8 < 4 then x.getLsbD (k - 8)
      else c.getLsbD (k - 8 - 4)) && m.getLsbD k) = v.getLsbD k) :
    wordXNN c x nn &&& m = v := by
  apply BitVec.eq_of_getLsbD_eq
  intro k hk
  rw [BitVec.getLsbD_and, wordXNN_bit]
  exact h k hk

theorem and_wordXYN (c x y n : Nib) (m v : Word)
    (h : ∀ k, k < 16 → ((if k < 4 then n.getLsbD k else if k - 4 < 4 then y.getLsbD (k - 4)
      else if k - 4 - 4 < 4 then x.getLsbD (k - 4 - 4) else c.getLsbD (k - 4 - 4 - 4)) && m.getLsbD k) =
        v.getLsbD k) :
    wordXYN c x y n &&& m = v := by
  apply BitVec.eq_of_getLsbD_eq
  intro k hk
  rw [BitVec.getLsbD_and, wordXYN_bit]
  exact h k hk

theorem cls : Statement .cls := rfl

theorem ret : Statement .ret := rfl

theorem sys (nnn : Addr) : Statement (.sys nnn) :=
  and_wordNNN _ _ _ _ (by intro k hk; interval_cases k <;> simp [Instr.row])

theorem jp (nnn : Addr) : Statement (.jp nnn) :=
  and_wordNNN _ _ _ _ (by intro k hk; interval_cases k <;> simp [Instr.row])

theorem call (nnn : Addr) : Statement (.call nnn) :=
  and_wordNNN _ _ _ _ (by intro k hk; interval_cases k <;> simp [Instr.row])

theorem seImm (x : Nib) (nn : Byte) : Statement (.seImm x nn) :=
  and_wordXNN _ _ _ _ _ (by intro k hk; interval_cases k <;> simp [Instr.row])

theorem sneImm (x : Nib) (nn : Byte) : Statement (.sneImm x nn) :=
  and_wordXNN _ _ _ _ _ (by intro k hk; interval_cases k <;> simp [Instr.row])

theorem seReg (x : Nib) (y : Nib) : Statement (.seReg x y) :=
  and_wordXYN _ _ _ _ _ _ (by intro k hk; interval_cases k <;> simp [Instr.row])

theorem sneReg (x : Nib) (y : Nib) : Statement (.sneReg x y) :=
  and_wordXYN _ _ _ _ _ _ (by intro k hk; interval_cases k <;> simp [Instr.row])

theorem ldImm (x : Nib) (nn : Byte) : Statement (.ldImm x nn) :=
  and_wordXNN _ _ _ _ _ (by intro k hk; interval_cases k <;> simp [Instr.row])

theorem addImm (x : Nib) (nn : Byte) : Statement (.addImm x nn) :=
  and_wordXNN _ _ _ _ _ (by intro k hk; interval_cases k <;> simp [Instr.row])

theorem ldReg (x : Nib) (y : Nib) : Statement (.ldReg x y) :=
  and_wordXYN _ _ _ _ _ _ (by intro k hk; interval_cases k <;> simp [Instr.row])

theorem orReg (x : Nib) (y : Nib) : Statement (.orReg x y) :=
  and_wordXYN _ _ _ _ _ _ (by intro k hk; interval_cases k <;> simp [Instr.row])

theorem andReg (x : Nib) (y : Nib) : Statement (.andReg x y) :=
  and_wordXYN _ _ _ _ _ _ (by intro k hk; interval_cases k <;> simp [Instr.row])

theorem xorReg (x : Nib) (y : Nib) : Statement (.xorReg x y) :=
  and_wordXYN _ _ _ _ _ _ (by intro k hk; interval_cases k <;> simp [Instr.row])

theorem addReg (x : Nib) (y : Nib) : Statement (.addReg x y) :=
  and_wordXYN _ _ _ _ _ _ (by intro k hk; interval_cases k <;> simp [Instr.row])

theorem sub (x : Nib) (y : Nib) : Statement (.sub x y) :=
  and_wordXYN _ _ _ _ _ _ (by intro k hk; interval_cases k <;> simp [Instr.row])

theorem shr (x : Nib) (y : Nib) : Statement (.shr x y) :=
  and_wordXYN _ _ _ _ _ _ (by intro k hk; interval_cases k <;> simp [Instr.row])

theorem subn (x : Nib) (y : Nib) : Statement (.subn x y) :=
  and_wordXYN _ _ _ _ _ _ (by intro k hk; interval_cases k <;> simp [Instr.row])

theorem shl (x : Nib) (y : Nib) : Statement (.shl x y) :=
  and_wordXYN _ _ _ _ _ _ (by intro k hk; interval_cases k <;> simp [Instr.row])

theorem ldI (nnn : Addr) : Statement (.ldI nnn) :=
  and_wordNNN _ _ _ _ (by intro k hk; interval_cases k <;> simp [Instr.row])

theorem jpV0 (nnn : Addr) : Statement (.jpV0 nnn) :=
  and_wordNNN _ _ _ _ (by intro k hk; interval_cases k <;> simp [Instr.row])

theorem rnd (x : Nib) (nn : Byte) : Statement (.rnd x nn) :=
  and_wordXNN _ _ _ _ _ (by intro k hk; interval_cases k <;> simp [Instr.row])

theorem drw (x : Nib) (y : Nib) (n : Nib) : Statement (.drw x y n) :=
  and_wordXYN _ _ _ _ _ _ (by intro k hk; interval_cases k <;> simp [Instr.row])

theorem skp (x : Nib) : Statement (.skp x) :=
  and_wordXNN _ _ _ _ _ (by intro k hk; interval_cases k <;> simp [Instr.row])

theorem sknp (x : Nib) : Statement (.sknp x) :=
  and_wordXNN _ _ _ _ _ (by intro k hk; interval_cases k <;> simp [Instr.row])

theorem ldVxDt (x : Nib) : Statement (.ldVxDt x) :=
  and_wordXNN _ _ _ _ _ (by intro k hk; interval_cases k <;> simp [Instr.row])

theorem ldDtVx (x : Nib) : Statement (.ldDtVx x) :=
  and_wordXNN _ _ _ _ _ (by intro k hk; interval_cases k <;> simp [Instr.row])

theorem ldStVx (x : Nib) : Statement (.ldStVx x) :=
  and_wordXNN _ _ _ _ _ (by intro k hk; interval_cases k <;> simp [Instr.row])

theorem addI (x : Nib) : Statement (.addI x) :=
  and_wordXNN _ _ _ _ _ (by intro k hk; interval_cases k <;> simp [Instr.row])

theorem ldF (x : Nib) : Statement (.ldF x) :=
  and_wordXNN _ _ _ _ _ (by intro k hk; interval_cases k <;> simp [Instr.row])

theorem ldB (x : Nib) : Statement (.ldB x) :=
  and_wordXNN _ _ _ _ _ (by intro k hk; interval_cases k <;> simp [Instr.row])

theorem stRegs (x : Nib) : Statement (.stRegs x) :=
  and_wordXNN _ _ _ _ _ (by intro k hk; interval_cases k <;> simp [Instr.row])

theorem ldRegs (x : Nib) : Statement (.ldRegs x) :=
  and_wordXNN _ _ _ _ _ (by intro k hk; interval_cases k <;> simp [Instr.row])

theorem ldVxK (x : Nib) : Statement (.ldVxK x) :=
  and_wordXNN _ _ _ _ _ (by intro k hk; interval_cases k <;> simp [Instr.row])

end Sys2Proof.Laws.TableRow
end

