-- ==== Sys2Proof/Tests/Slice0.lean ====
section
/-! SUPPORT. Tests: ill-formed terms, words written out bit by bit from R75, one-step vectors of spec/95_test_vectors.md
(section and number in each comment), and for every statement with hypotheses a state that meets them. -/

namespace Sys2Proof.Tests

open Sys2Proof Sys2Proof.Machine

/-! ### Well-formedness -/

/-- R74: the row `0NNN` excludes 00E0 and 00EE; the neighbours on both sides are in it. -/
theorem test_wf_refuses_sys_00E0_00EE :
    (Instr.sys 0x0E0).wf = false ∧ (Instr.sys 0x0EE).wf = false ∧ (Instr.sys 0x0DF).wf = true ∧
    (Instr.sys 0x0E1).wf = true ∧ (Instr.sys 0x0ED).wf = true ∧ (Instr.sys 0x0EF).wf = true := by decide

/-- R73: any other term is well-formed, at the largest values of its fields. -/
theorem test_wf_accepts_the_rest :
    Instr.cls.wf = true ∧ Instr.ret.wf = true ∧ (Instr.jp 0xFFF).wf = true ∧ (Instr.drw 15 15 15).wf = true ∧
    (Instr.ldRegs 15).wf = true := by decide

/-! ### Decoding: each word is the row's pattern (R75) written out in bits -/

theorem test_decode_control :
    decodeWord 0b0000000011100000 = some .cls ∧ decodeWord 0b0000000011101110 = some .ret ∧
    decodeWord 0b0000000100100011 = some (.sys 0x123) ∧ decodeWord 0b0001101010111100 = some (.jp 0xABC) ∧
    decodeWord 0b0010001101000101 = some (.call 0x345) ∧ decodeWord 0b1011001100000100 = some (.jpV0 0x304) := by
  decide

theorem test_decode_skips :
    decodeWord 0b0011001101000010 = some (.seImm 3 0x42) ∧ decodeWord 0b0100001101000010 = some (.sneImm 3 0x42) ∧
    decodeWord 0b0101000100100000 = some (.seReg 1 2) ∧ decodeWord 0b1001000100100000 = some (.sneReg 1 2) ∧
    decodeWord 0b1110001010011110 = some (.skp 2) ∧ decodeWord 0b1110001010100001 = some (.sknp 2) := by
  decide

theorem test_decode_immediate :
    decodeWord 0b0110101001111111 = some (.ldImm 10 0x7F) ∧ decodeWord 0b0111001000000001 = some (.addImm 2 0x01) ∧
    decodeWord 0b1100001100001111 = some (.rnd 3 0x0F) := by
  decide

theorem test_decode_class8 :
    decodeWord 0b1000101010110000 = some (.ldReg 10 11) ∧ decodeWord 0b1000000100100001 = some (.orReg 1 2) ∧
    decodeWord 0b1000000100100010 = some (.andReg 1 2) ∧ decodeWord 0b1000000100100011 = some (.xorReg 1 2) ∧
    decodeWord 0b1000000100100100 = some (.addReg 1 2) ∧ decodeWord 0b1000000100100101 = some (.sub 1 2) ∧
    decodeWord 0b1000000100100110 = some (.shr 1 2) ∧ decodeWord 0b1000000100100111 = some (.subn 1 2) ∧
    decodeWord 0b1000000100101110 = some (.shl 1 2) := by
  decide

theorem test_decode_index_and_display :
    decodeWord 0b1010000100100011 = some (.ldI 0x123) ∧ decodeWord 0b1101000000010010 = some (.drw 0 1 2) := by
  decide

theorem test_decode_classF :
    decodeWord 0b1111001100000111 = some (.ldVxDt 3) ∧ decodeWord 0b1111101000001010 = some (.ldVxK 10) ∧
    decodeWord 0b1111001100010101 = some (.ldDtVx 3) ∧ decodeWord 0b1111001100011000 = some (.ldStVx 3) ∧
    decodeWord 0b1111001000011110 = some (.addI 2) ∧ decodeWord 0b1111010000101001 = some (.ldF 4) ∧
    decodeWord 0b1111000000110011 = some (.ldB 0) ∧ decodeWord 0b1111001001010101 = some (.stRegs 2) ∧
    decodeWord 0b1111001001100101 = some (.ldRegs 2) := by
  decide

/-- 95 section 2.1, vector 22: the unrecognised words that are no `0NNN`. -/
theorem test_decode_unrecognised :
    [0x5121, 0x8128, 0x812F, 0x9ABC, 0xE000, 0xE09F, 0xF000, 0xF175, 0xFFFF].map decodeWord =
      List.replicate 9 none := by decide

/-- R70, R53: high byte first; one byte alone is no instruction. -/
theorem test_decode_bytes :
    decodeBytes [0x6A, 0x7F, 0x12] = .ok (.ldImm 10 0x7F, [0x12]) ∧ decodeBytes [0x6A] = .error .tooShort ∧
    decodeBytes [0x51, 0x21] = .error (.unrecognised 0x5121) := by
  refine ⟨rfl, rfl, rfl⟩

theorem test_encode_bytes : encodeBytes (.ldImm 10 0x7F) = [0x6A, 0x7F] := by decide

theorem test_table_word : decodeTableWord 16 0x8124 = some (.addReg 1 2) ∧ decodeTableWord 16 0x5121 = none := by
  decide

/-- R79, and the assembly columns of programs P1, P2, P3 and P4 of section 3. -/
theorem test_text :
    [0x6005, 0x8104, 0x70FF, 0x3000, 0x120C].map (fun w => (decodeWord w).map Instr.text) =
      [some "LD V0, 0x05", some "ADD V1, V0", some "ADD V0, 0xFF", some "SE V0, 0x00", some "JP 0x20C"] ∧
    [0xA300, 0xF265, 0xF033, 0xD012, 0xFA0A, 0xFA15, 0x8126].map (fun w => (decodeWord w).map Instr.text) =
      [some "LD I, 0x300", some "LD V2, [I]", some "LD B, V0", some "DRW V0, V1, 2", some "LD VA, K",
        some "LD DT, VA", some "SHR V1"] := by
  decide +kernel

/-! ### One-step vectors -/

/-- What one step leaves, seen through `f`. -/
def after {α : Type} (r : Result) (f : State → α) : Option α :=
  match r with
  | .next t => some (f t)
  | .fault _ => none
  | .refused _ => none

/-- One step that fetches and runs the word `w`. -/
def run1 (w : Nat) (s : State) : Result := step (s.withFetchWord 16 w)

/-- The state after `LOAD` with some registers set. -/
def withRegs (l : List (Nib × Byte)) : State := l.foldl (fun s p => s.setV p.1 p.2) State.reset

/-- 2.1 #1. -/
theorem test_jp : after (run1 0x1ABC State.reset) (·.pc) = some 0xABC := by decide

/-- 2.1 #3. -/
theorem test_call :
    after (run1 0x2210 State.reset) (fun t => (t.sp, t.slot 1, t.pc)) = some (1, 0x202, 0x210) := by decide

/-- 2.1 #6. -/
theorem test_call_full :
    after (run1 0x2345 { State.reset with sp := 16 }) (fun t => (t.pc, t.sp, t.err, t.output.reports)) =
      some (0x202, 16, 0b0100, [.stkovf 0x200 0x2345]) := by decide

/-- 2.1 #4. -/
theorem test_ret :
    after (run1 0x00EE { State.reset with pc := 0x212, sp := 1, stack := State.reset.stack.set 0 0x206 })
      (fun t => (t.pc, t.sp, t.slot 1)) = some (0x206, 0, 0x206) := by decide

/-- 2.1 #5. -/
theorem test_ret_empty :
    after (run1 0x00EE State.reset) (fun t => (t.pc, t.sp, t.err, t.output.reports)) =
      some (0x202, 0, 0b0010, [.stkunf 0x200 0x00EE]) := by decide

/-- 2.1 #9: masked, VF unchanged. -/
theorem test_jpV0_wraps :
    after (run1 0xBF80 (withRegs [(0, 0xFF), (15, 7)])) (fun t => (t.pc, t.getV 15)) = some (0x07F, 7) := by decide

/-- 2.1 #10 and #11. -/
theorem test_seImm :
    after (run1 0x3342 (withRegs [(3, 0x42)])) (·.pc) = some 0x204 ∧
    after (run1 0x3343 (withRegs [(3, 0x42)])) (·.pc) = some 0x202 := by decide

/-- 2.1 #12 and #13. -/
theorem test_sneImm :
    after (run1 0x4342 (withRegs [(3, 0x42)])) (·.pc) = some 0x202 ∧
    after (run1 0x4343 (withRegs [(3, 0x42)])) (·.pc) = some 0x204 := by decide

/-- 2.1 #14 and #15. -/
theorem test_seReg :
    after (run1 0x5120 (withRegs [(1, 7), (2, 7)])) (·.pc) = some 0x204 ∧
    after (run1 0x5120 (withRegs [(1, 7), (2, 8)])) (·.pc) = some 0x202 := by decide

/-- 2.1 #17 and #18. -/
theorem test_sneReg :
    after (run1 0x9120 (withRegs [(1, 7), (2, 8)])) (·.pc) = some 0x204 ∧
    after (run1 0x9110 (withRegs [(1, 7)])) (·.pc) = some 0x202 := by decide

/-- 2.1 #19: the skip wraps. -/
theorem test_seImm_wraps :
    after (run1 0x3342 { withRegs [(3, 0x42)] with pc := 0xFFC }) (·.pc) = some 0x000 := by decide

/-- 2.1 #20: the second byte fetched from 0xFFF is the font's first. -/
theorem test_fetch_wraps :
    after (step { State.reset with pc := 0xFFF, mem := [(0xFFF, 0x60)], activity := .cycles 1 0 })
      (fun t => (t.getV 0, t.pc)) = some (0xF0, 0x001) := by decide

/-- 2.1 #21. -/
theorem test_call_at_the_top :
    after (run1 0x2200 { State.reset with pc := 0xFFE }) (fun t => (t.sp, t.slot 1, t.pc)) =
      some (1, 0x000, 0x200) := by decide

/-- 2.1 #22: a word of no row, and a word of the row `0NNN`. -/
theorem test_unrecognised :
    after (run1 0x5121 State.reset) (fun t => (t.pc, t.err, t.output.reports)) =
      some (0x202, 0b0001, [.badop 0x200 0x5121]) := by decide

theorem test_sys :
    after (run1 0x0123 State.reset) (fun t => (t.pc, t.err, t.output.reports)) =
      some (0x202, 0b0001, [.badop 0x200 0x0123]) := by decide

/-- 2.2 #1. -/
theorem test_ldImm : after (run1 0x6A7F State.reset) (fun t => (t.getV 10, t.pc)) = some (0x7F, 0x202) := by decide

/-- 2.2 #3 and #5. -/
theorem test_addImm :
    after (run1 0x7201 (withRegs [(2, 0xFF), (15, 1)])) (fun t => (t.getV 2, t.getV 15)) = some (0x00, 1) ∧
    after (run1 0x7F03 (withRegs [(15, 0xFE)])) (·.getV 15) = some 0x01 := by decide

/-- 2.2 #6. -/
theorem test_ldReg :
    after (run1 0x8AB0 (withRegs [(11, 0x3C), (15, 9)])) (fun t => (t.getV 10, t.getV 15)) = some (0x3C, 9) := by
  decide

/-- 2.2 #7. -/
theorem test_orReg :
    after (run1 0x8121 (withRegs [(1, 0x0F), (2, 0xF0), (15, 1)])) (fun t => (t.getV 1, t.getV 15)) =
      some (0xFF, 1) := by decide

/-- 2.2 #8. -/
theorem test_andReg : after (run1 0x8122 (withRegs [(1, 0x3C), (2, 0x0F)])) (·.getV 1) = some 0x0C := by decide

/-- 2.2 #9. -/
theorem test_xorReg : after (run1 0x8123 (withRegs [(1, 0xFF), (2, 0x0F)])) (·.getV 1) = some 0xF0 := by decide

/-- 2.2 #11 and #14. -/
theorem test_addReg :
    after (run1 0x8124 (withRegs [(1, 0xC8), (2, 0x64)])) (fun t => (t.getV 1, t.getV 15)) = some (0x2C, 1) ∧
    after (run1 0x81F4 (withRegs [(1, 0x90), (15, 1)])) (fun t => (t.getV 1, t.getV 15)) = some (0x91, 0) := by
  decide

/-- 2.2 #15 and #16: VF is the destination. -/
theorem test_addReg_flag_last :
    after (run1 0x8FF4 (withRegs [(15, 0x80)])) (·.getV 15) = some 1 ∧
    after (run1 0x8F14 (withRegs [(15, 0xFF), (1, 1)])) (fun t => (t.getV 15, t.getV 1)) = some (1, 1) := by decide

/-- 2.2 #17 and #18. -/
theorem test_sub :
    after (run1 0x8125 (withRegs [(1, 3), (2, 5)])) (fun t => (t.getV 1, t.getV 15)) = some (0xFE, 0) ∧
    after (run1 0x8125 (withRegs [(1, 5), (2, 5)])) (fun t => (t.getV 1, t.getV 15)) = some (0, 1) := by decide

/-- 2.2 #21 and #23. -/
theorem test_shr :
    after (run1 0x8126 (withRegs [(1, 0x05), (2, 0xAA)])) (fun t => (t.getV 1, t.getV 15, t.getV 2)) =
      some (0x02, 1, 0xAA) ∧
    after (run1 0x8F06 (withRegs [(15, 3)])) (·.getV 15) = some 1 := by decide

/-- 2.2 #24 and #25. -/
theorem test_subn :
    after (run1 0x8127 (withRegs [(1, 3), (2, 5)])) (fun t => (t.getV 1, t.getV 15)) = some (2, 1) ∧
    after (run1 0x8127 (withRegs [(1, 1), (2, 0)])) (fun t => (t.getV 1, t.getV 15)) = some (0xFF, 0) := by decide

/-- 2.2 #27 and #29. -/
theorem test_shl :
    after (run1 0x812E (withRegs [(1, 0x81), (2, 0xAA)])) (fun t => (t.getV 1, t.getV 15, t.getV 2)) =
      some (0x02, 1, 0xAA) ∧
    after (run1 0x810E (withRegs [(1, 0x40)])) (fun t => (t.getV 1, t.getV 15)) = some (0x80, 0) := by decide

/-- 2.2 #32 and #33: the draw is free, the mask is not. -/
theorem test_rnd :
    after (run1 0xC300 State.reset) (·.getV 3) = some (Config.randByte 0 &&& 0) ∧
    after (run1 0xC3FF State.reset) (·.getV 3) = some (Config.randByte 0 &&& 0xFF) := ⟨rfl, rfl⟩

/-- 2.3 #1. -/
theorem test_ldI : after (run1 0xA123 State.reset) (·.idx) = some 0x123 := by decide

/-- 2.3 #3 and #4. -/
theorem test_addI :
    after (run1 0xF21E { withRegs [(2, 3)] with idx := 0xFFE }) (fun t => (t.idx, t.getV 15)) = some (0x001, 1) ∧
    after (run1 0xF21E { withRegs [(2, 0x0F)] with idx := 0xFF0 }) (fun t => (t.idx, t.getV 15)) =
      some (0xFFF, 0) := by decide

/-- 2.3 #5. -/
theorem test_addI_flag_last :
    after (run1 0xFF1E { withRegs [(15, 0x0F)] with idx := 0xFF8 }) (fun t => (t.idx, t.getV 15)) =
      some (0x007, 1) := by decide

/-- 2.3 #8 and #10. -/
theorem test_ldF :
    after (run1 0xF429 (withRegs [(4, 0x1A)])) (·.idx) = some 0x032 ∧
    after (run1 0xF429 { withRegs [(4, 0x0A)] with cfg := { Config.default with fontBase := 0x050 } }) (·.idx) =
      some 0x082 := by decide

/-- 2.3 #11. -/
theorem test_ldB :
    after (run1 0xF033 { withRegs [(0, 254)] with idx := 0x300 })
      (fun t => (t.readByte 0x300, t.readByte 0x301, t.readByte 0x302, t.idx)) = some (2, 5, 4, 0x300) := by decide

/-- 2.3 #14: the run wraps onto the font. -/
theorem test_ldB_wraps :
    after (run1 0xF033 { withRegs [(0, 199)] with idx := 0xFFE })
      (fun t => (t.readByte 0xFFE, t.readByte 0xFFF, t.readByte 0x000)) = some (1, 9, 9) := by decide

/-- 2.3 #15. -/
theorem test_stRegs :
    after (run1 0xF255 { withRegs [(0, 0x11), (1, 0x22), (2, 0x33), (3, 0x44)] with idx := 0x300 })
      (fun t => (t.readByte 0x300, t.readByte 0x301, t.readByte 0x302, t.readByte 0x303, t.idx)) =
      some (0x11, 0x22, 0x33, 0, 0x300) := by decide

/-- 2.3 #18. -/
theorem test_ldRegs :
    after (run1 0xF265 { withRegs [(3, 0x77)] with
        idx := 0x300, mem := [(0x300, 2), (0x301, 5), (0x302, 4), (0x303, 9)] })
      (fun t => (t.getV 0, t.getV 1, t.getV 2, t.getV 3)) = some (2, 5, 4, 0x77) := by decide +kernel

/-- 2.4 #1. -/
theorem test_cls :
    after (run1 0x00E0 { withRegs [(15, 1)] with fb := Vector.replicate 32 (BitVec.allOnes 64) })
      (fun t => (t.fb, t.getV 15)) = some (Vector.replicate 32 0, 1) := by decide +kernel

/-- The rows 0, 31 and 4 of a framebuffer, bit x standing for column x. -/
def rows (t : State) : BitVec 64 × BitVec 64 × BitVec 64 := (t.fb[0], t.fb[31], t.fb[4])

/-- 2.4 #6: columns 62, 63, 0, 1 of row 31; columns 62 and 5 of row 0. -/
theorem test_drw_wraps :
    after (run1 0xD012 { withRegs [(0, 62), (1, 31)] with idx := 0x20C, mem := [(0x20C, 0xF0), (0x20D, 0x81)] })
      (fun t => (rows t, t.getV 15)) =
      some ((0x4000000000000020, 0xC000000000000003, 0), 0) := by decide +kernel

/-- 2.4 #9: the origin is the old VF. -/
theorem test_drw_origin_from_flag :
    after (run1 0xDF01 { withRegs [(15, 63)] with idx := 0x300, mem := [(0x300, 0xC0)] })
      (fun t => (rows t, t.getV 15)) = some ((0x8000000000000001, 0, 0), 0) := by decide +kernel

/-- The reset state with the key 5 held. -/
def holding5 : State := { State.reset with keys := State.reset.keys.set 5 true }

/-- 2.5 #3 and #2. -/
theorem test_skp :
    after (run1 0xE29E (holding5.setV 2 0x15)) (·.pc) = some 0x204 ∧
    after (run1 0xE29E (withRegs [(2, 0x05)])) (·.pc) = some 0x202 := by decide

/-- 2.5 #4 and #5. -/
theorem test_sknp :
    after (run1 0xE2A1 (holding5.setV 2 0x05)) (·.pc) = some 0x202 ∧
    after (run1 0xE2A1 (withRegs [(2, 0x05)])) (·.pc) = some 0x204 := by decide

/-- 2.5 #6: a held key does not satisfy the wait. -/
theorem test_ldVxK :
    after (run1 0xFA0A (holding5.setV 10 0xEE)) (fun t => (t.pc, t.wait, t.getV 10)) =
      some (0x202, some 10, 0xEE) := by decide

/-- The state of one host operation still to come. -/
def told (op : HostOp) (s : State) : State := { s with inbox := [op] }

/-- 2.5 #8 and #7. -/
theorem test_setKey :
    after (step (told (.setKey 5 true) { withRegs [(10, 0xEE)] with wait := some 10 }))
      (fun t => (t.key 5, t.getV 10, t.wait, t.pc)) = some (true, 0x05, none, 0x200) ∧
    after (step (told (.setKey 5 false) { holding5 with wait := some 10 })) (fun t => (t.key 5, t.wait)) =
      some (false, some 10) := by decide

/-- 2.5 #10. -/
theorem test_setKey_out_of_range :
    after (step (told (.setKey 16 true) State.reset)) id = some State.reset ∧
    after (step (told (.setKey (-1) true) State.reset)) id = some State.reset := by decide +kernel

/-- 2.6 #1. -/
theorem test_ldVxDt :
    after (run1 0xF307 { State.reset with dt := 0x2A }) (fun t => (t.getV 3, t.dt)) = some (0x2A, 0x2A) := by decide

/-- 2.6 #2. -/
theorem test_ldDtVx : after (run1 0xF315 (withRegs [(3, 60)])) (fun t => (t.dt, t.st)) = some (60, 0) := by decide

/-- 2.6 #3. -/
theorem test_ldStVx : after (run1 0xF318 (withRegs [(3, 5)])) (fun t => (t.dt, t.st)) = some (0, 5) := by decide

/-- 2.6 #4 and #5. -/
theorem test_timerTick :
    (State.timerTick { State.reset with dt := 1, st := 0 }).dt = 0 ∧
    (State.timerTick { State.reset with dt := 0, st := 7 }).dt = 0 ∧
    (State.timerTick { State.reset with dt := 0, st := 7 }).st = 6 := by decide

/-- 2.6 #7: the turn of the tick loop at ACC = 17. -/
theorem test_tickTurn :
    after (step { State.reset with acc := 17, dt := 9, activity := .ticks }) (fun t => (t.dt, t.acc)) =
      some (8, 1 / 3) := by decide +kernel

/-- 2.6 #9: no ROM, no effect. -/
theorem test_advance_unloaded : after (step (told (.advance 1000) State.reset)) id = some State.reset := by
  decide +kernel

/-- 2.6 #8, #10 and #11: the number of cycle attempts. -/
theorem test_attemptCount :
    attemptCount Config.default (50 / 3) = 11 ∧ attemptCount { Config.default with clockHz := 500 } 16 = 8 ∧
    attemptCount { Config.default with clockHz := 1 } 100 = 1 := by decide +kernel

/-- S6: the 60 ticks of 1000 ms. -/
theorem test_tickPhase :
    let t := State.tickPhase { State.reset with acc := 1000, dt := 100, st := 30 }
    t.dt = 40 ∧ t.st = 0 ∧ t.acc = 0 := by decide +kernel

/-- 2.7 #1: the first and the last font bytes, and the first cell after them. -/
theorem test_cold_memory :
    [0x000, 0x001, 0x004, 0x04B, 0x04C, 0x04F, 0x050].map State.reset.readByte =
      [0xF0, 0x90, 0xF0, 0xF0, 0x80, 0x80, 0] := by decide

/-- S1: the bytes of `LOAD(12 34 56)`. -/
theorem test_load :
    after (step (told (.load [0x12, 0x34, 0x56]) State.reset))
      (fun t => ([0x000, 0x200, 0x201, 0x202, 0x203].map t.readByte, t.pc, t.romLoaded, t.rom.length)) =
      some ([0xF0, 0x12, 0x34, 0x56, 0], 0x200, true, 3) := by decide

/-- 2.7 #4: 3585 bytes. -/
theorem test_load_too_long :
    after (step (told (.load (List.replicate 3585 0)) State.reset)) (fun t => (t.err, t.output.reports, t.rom.length)) =
      some (0b1000, [.romtrunc 3585], 3584) := by decide +kernel

/-- 2.7 #2. -/
theorem test_reload_nothing : after (step (told .reload State.reset)) id = some State.reset := by decide +kernel

/-- 2.7 #7. -/
theorem test_reset_operation :
    after (step (told .reset { holding5 with romLoaded := true, everLoaded := true, rom := [0x12], dt := 5, acc := 7 }))
      (fun t => ((t.key 5, t.romLoaded, t.everLoaded), (t.rom, t.dt, t.acc))) =
      some ((false, false, true), ([0x12], 0, 0)) := by decide +kernel

/-! ### Witnesses: for each statement with hypotheses, a state and operands that meet them all; where a statement has
several clauses, one for each, at the ends of its range -/

/-- A running core: in an `ADVANCE` with one cycle attempt to come, the word of `8124` at PC. -/
def running : State := (withRegs [(1, 0xC8), (2, 0x64)]).withFetchWord 16 0x8124

/-- The same core waiting for a key, for register `VA`. -/
def waiting : State := { running with wait := some 10 }

/-- A core with a ROM loaded, between host operations. -/
def loaded : State := { State.reset with everLoaded := true, romLoaded := true }

theorem witness_DecodeAfterEncode :
    (Instr.sys 0xFFF).wf = true ∧ (Instr.sys 0x000).wf = true ∧ Instr.ret.wf = true ∧ (Instr.drw 15 15 15).wf = true := by
  decide

theorem witness_EncodeAfterDecode :
    decodeWord 0x0000 = some (.sys 0) ∧ decodeWord 0x00EE = some .ret ∧ decodeWord 0xFF65 = some (.ldRegs 15) := by
  decide

theorem witness_DecodeBytesTakesTwoBytes : (Instr.sys 0x0EF).wf = true ∧ (Instr.ldVxK 15).wf = true := by decide

/-- Each row of the table at the ends of its range, and the three hypotheses on class 0 at once. -/
theorem witness_UnrecognisedWordsExactly :
    [0x5001, 0x5FFF, 0x8008, 0x800D, 0x800F, 0x8FFF, 0x9001, 0x9FFF, 0xE000, 0xEFFF, 0xF000, 0xFFFF].map decodeWord =
      List.replicate 12 none ∧
    ((0x0000#16).toNat / 4096 = 0x0 ∧ (0x0000#16) ≠ 0x00E0 ∧ (0x0000#16) ≠ 0x00EE) ∧
    ((0x0FFF#16).toNat / 4096 = 0x0 ∧ (0x0FFF#16) ≠ 0x00E0 ∧ (0x0FFF#16) ≠ 0x00EE) := by decide

theorem witness_StepRunsDecodedInstruction :
    running.activity = .cycles (0 + 1) 0 ∧ running.wait = none ∧
    decodeWord (memRead running.cfg running.mem (running.pc.toNat % 4096) ++
      memRead running.cfg running.mem ((running.pc.toNat + 1) % 4096)) = some (.addReg 1 2) := by
  decide

theorem witness_StepPassesOverUnrecognisedWord :
    let s := { State.reset with pc := 0xFFF }.withFetchWord 16 0x5121
    s.activity = .cycles (0 + 1) 0 ∧ s.wait = none ∧ s.pc.toNat ≤ 0xFFF ∧
    0x5121#16 = memRead s.cfg s.mem (s.pc.toNat % 4096) ++ memRead s.cfg s.mem ((s.pc.toNat + 1) % 4096) ∧
    decodeWord 0x5121#16 = none := by
  decide

theorem witness_CycleAttemptHonoursKeyWait :
    let w := told (.advance 10) { loaded with wait := some 10 }
    (running.activity = .cycles (0 + 1) 0 ∧ running.wait = none) ∧
    (waiting.activity = .cycles 1 0 ∧ waiting.wait = some 10) ∧
    (w.activity = .idle ∧ w.inbox = [.advance 10] ∧ w.romLoaded = true ∧ w.wait = some 10) := by decide +kernel

/-- The hypotheses on register numbers in the statements about the ALU, the index register, the display and the timers. -/
theorem witness_register_numbers : (1 : Nib) ≠ 15#4 ∧ (2 : Nib) ≠ 1 ∧ (2 : Nib) ≠ 15#4 ∧ (0 : Nib) ≠ 15#4 := by decide

/-- A flag writer, and an instruction that names VF, each of which changes VF. -/
theorem witness_FlagWritersOnly :
    (∃ t, exec (.addReg 1 2) running = .next t ∧ t.getV 15#4 ≠ running.getV 15#4) ∧
    (∃ t, exec (.ldImm 15 5) running = .next t ∧ t.getV 15#4 ≠ running.getV 15#4) :=
  ⟨⟨_, rfl, by decide⟩, ⟨_, rfl, by decide⟩⟩

/-- Stack depths 0 and 15 take a call, 16 does not. -/
theorem witness_CallPushesOrIsRejected :
    State.reset.sp.val < 16 ∧ { State.reset with sp := 15 }.sp.val < 16 ∧ { State.reset with sp := 16 }.sp.val = 16 := by
  decide

/-- Stack depths 1 and 16 allow a return, 0 does not. -/
theorem witness_ReturnPopsOrReports :
    0 < { State.reset with sp := 1 }.sp.val ∧ 0 < { State.reset with sp := 16 }.sp.val ∧ State.reset.sp.val = 0 := by
  decide

theorem witness_ReturnUndoesCall : State.reset.sp.val < 16 ∧ { State.reset with sp := 15 }.sp.val < 16 := by decide

theorem witness_SelfJumpParks :
    let s := State.reset.withFetchWord 16 0x1200
    s.activity = .cycles (0 + 1) 0 ∧ s.wait = none ∧ s.pc.toNat ≤ 0xFFF ∧
    memRead s.cfg s.mem s.pc.toNat ++ memRead s.cfg s.mem ((s.pc.toNat + 1) % 4096) = (0x1000#16 ||| s.pc) := by
  decide

/-- The default parameters, and the largest `FONT_BASE`. -/
theorem witness_PointAtGlyph : Config.default.valid ∧ { Config.default with fontBase := 0x1B0 }.valid := by decide

/-- A register inside and one outside the block, and a cell outside the stored bytes. -/
theorem witness_blocks :
    (2 : Nib) ≤ 2 ∧ (2 : Nib) < 3 ∧ (∀ k, k ≤ (2 : Nib).toNat → 0x303 ≠ (0x300 + k) % 4096) ∧
    (∀ k, k < 3 → 0x303 ≠ (0x300 + k) % 4096) := by
  refine ⟨by decide, by decide, fun k hk => ?_, fun k hk => ?_⟩
  · have : k ≤ 2 := hk
    omega
  · omega

/-- A core about to store at I, with `V[0]`, `V[1]` the word 6A7F or, with F0 in `V[0]`, an unrecognised one. -/
def storing (v0 : Byte) (pc idx : Word) : State :=
  { withRegs [(0, v0), (1, 0x7F)] with pc := pc, idx := idx, activity := .cycles 1 0 }

/-- The hypotheses of `StoreSeenByNextFetch` at a state: the store, the running core after it, and what the word at PC
then decodes to. -/
def storeThenFetch (s : State) (store : Instr) (bytes : List Byte) (answer : Option Instr) : Prop :=
  ∃ t, exec store s = .next t ∧ t.activity = .cycles (0 + 1) 0 ∧ t.wait = none ∧
    decodeWord (cellAfterStore s s.idx.toNat bytes (s.pc.toNat % 4096) ++
      cellAfterStore s s.idx.toNat bytes ((s.pc.toNat + 1) % 4096)) = answer

/-- `FX55` on both bytes of the word across 0xFFF; on its first byte alone, the word then an instruction or none; `FX33`
on both bytes, and on the second alone, the first a font byte. -/
theorem witness_StoreSeenByNextFetch :
    storeThenFetch (storing 0x6A 0xFFF 0xFFF) (.stRegs 1) [0x6A, 0x7F] (some (.ldImm 10 0x7F)) ∧
    storeThenFetch (storing 0x6A 0x300 0x300) (.stRegs 0) [0x6A] (some (.ldImm 10 0x00)) ∧
    storeThenFetch (storing 0xF0 0x300 0x300) (.stRegs 0) [0xF0] none ∧
    storeThenFetch (storing 254 0x300 0x300) (.ldB 0) [2, 5, 4] (some (.sys 0x205)) ∧
    storeThenFetch (storing 254 0x000 0x001) (.ldB 0) [2, 5, 4] none :=
  ⟨⟨_, rfl, by decide, by decide, by decide⟩, ⟨_, rfl, by decide, by decide, by decide⟩,
    ⟨_, rfl, by decide, by decide, by decide⟩, ⟨_, rfl, by decide, by decide, by decide⟩,
    ⟨_, rfl, by decide, by decide, by decide⟩⟩

/-- The bytes of `StoreSeenByNextFetch` at those states. -/
theorem witness_StoreSeenByNextFetch_bytes :
    (List.range ((1 : Nib).toNat + 1)).map (fun r => (storing 0x6A 0xFFF 0xFFF).getV (BitVec.ofNat 4 r)) = [0x6A, 0x7F] ∧
    (List.range ((0 : Nib).toNat + 1)).map (fun r => (storing 0xF0 0x300 0x300).getV (BitVec.ofNat 4 r)) = [0xF0] ∧
    [BitVec.ofNat 8 (((storing 254 0x300 0x300).getV 0).toNat / 100),
      BitVec.ofNat 8 (((storing 254 0x300 0x300).getV 0).toNat / 10 % 10),
      BitVec.ofNat 8 (((storing 254 0x300 0x300).getV 0).toNat % 10)] = [2#8, 5#8, 4#8] := by decide

/-- The default parameters, and the largest `FONT_BASE`. -/
theorem witness_ColdResetValues : Config.default.valid ∧ { Config.default with fontBase := 0x1B0 }.valid := by decide

theorem witness_DrawTwiceRestores :
    ∃ t u, exec (.drw 1 2 1) State.reset = .next t ∧ exec (.drw 1 2 1) t = .next u ∧
      (t.getV 1).toNat % 64 = (State.reset.getV 1).toNat % 64 ∧ (t.getV 2).toNat % 32 = (State.reset.getV 2).toNat % 32 :=
  ⟨_, _, rfl, rfl, by decide +kernel, by decide +kernel⟩

theorem witness_SkipsOnKey :
    (5 : Nib).toNat = ((withRegs [(2, 0x15)]).getV 2).toNat % 16 ∧
    (15 : Nib).toNat = ((withRegs [(2, 0xFF)]).getV 2).toNat % 16 := by decide

/-- A press and a release with a wait pending, and a press with none. -/
theorem witness_SetKeyTransitions :
    let s := told (.setKey ((15 : Nib).toNat : Int) true) { loaded with wait := some 10 }
    let r := told (.setKey ((0 : Nib).toNat : Int) false) { loaded with wait := some 10 }
    let n := told (.setKey ((5 : Nib).toNat : Int) true) loaded
    (s.activity = .idle ∧ s.inbox = [.setKey ((15 : Nib).toNat : Int) true] ∧ s.wait = some 10) ∧
    (r.activity = .idle ∧ r.inbox = [.setKey ((0 : Nib).toNat : Int) false] ∧ r.wait = some 10) ∧
    (n.activity = .idle ∧ n.inbox = [.setKey ((5 : Nib).toNat : Int) true] ∧ n.wait = none) := by decide

/-- ACC exactly at the interval, and below it. -/
theorem witness_TickTurn :
    let s := { loaded with activity := .ticks, acc := 50 / 3 }
    let n := { loaded with activity := .ticks, acc := 16 }
    (s.activity = .ticks ∧ 50 / 3 ≤ s.acc) ∧ (n.activity = .ticks ∧ n.acc < 50 / 3) := by decide +kernel

/-- Loaded and not loaded, at zero elapsed time. -/
theorem witness_AdvanceStarts :
    let s := told (.advance 0) loaded
    let n := told (.advance 0) State.reset
    (0 : Rat) ≤ 0 ∧ (s.activity = .idle ∧ s.inbox = [.advance 0] ∧ s.romLoaded = true) ∧
    (n.activity = .idle ∧ n.inbox = [.advance 0] ∧ n.romLoaded = false) := by decide +kernel

theorem witness_AdvanceStepsRefineTheCall :
    let s := told (.advance 30) loaded
    s.activity = .idle ∧ s.inbox = [.advance 30] := by decide +kernel

theorem witness_SuspendedAdvanceOnlyTicks :
    let s := { loaded with wait := some 10, acc := 10 }
    s.romLoaded = true ∧ s.wait = some 10 ∧ 0 ≤ s.acc ∧ (0 : Rat) ≤ 1000 := by decide +kernel

theorem witness_TimerRateIndependentOfCalls :
    let s := { loaded with wait := some 10, acc := 10 }
    s.romLoaded = true ∧ s.wait = some 10 ∧ 0 ≤ s.acc ∧ (0 : Rat) ≤ 0 ∧ (0 : Rat) ≤ 50 / 3 := by decide +kernel

/-- Negative time; an index on either side of 0..15. -/
theorem witness_InvalidHostInputIgnored :
    (-1 : Rat) < 0 ∧ ((-1 : Int) < 0 ∨ 15 < (-1 : Int)) ∧ ((16 : Int) < 0 ∨ 15 < (16 : Int)) ∧ loaded.activity = .idle := by
  decide +kernel

/-- The one hypothesis of the statements about a host operation: the core is between host operations. -/
theorem witness_idle : State.reset.activity = .idle ∧ loaded.activity = .idle := by decide

/-- A sequence that fits with its last byte, and one byte too many. -/
theorem witness_LoadPlacesRom :
    let s := told (.load (List.replicate 3584 1)) loaded
    let n := told (.load (List.replicate 3585 1)) loaded
    (s.activity = .idle ∧ s.cfg.valid ∧ s.inbox = [.load (List.replicate 3584 1)]) ∧
    (n.activity = .idle ∧ n.cfg.valid ∧ n.inbox = [.load (List.replicate 3585 1)]) ∧
    3583 < (List.replicate 3584 (1 : Byte)).length ∧ 3583 < 3584 ∧
    (0x50 < s.cfg.fontBase.toNat ∨ s.cfg.fontBase.toNat + 80 ≤ 0x50) ∧ 0x50 < 0x200 := by
  refine ⟨⟨rfl, by decide, rfl⟩, ⟨rfl, by decide, rfl⟩, by rw [List.length_replicate]; decide, by decide, by decide, by decide⟩

/-- Nothing loaded yet, and something loaded; a sequence that fits. -/
theorem witness_ReloadReplaysLoad :
    (State.reset.activity = .idle ∧ State.reset.everLoaded = false) ∧
    (loaded.activity = .idle ∧ loaded.everLoaded = true) ∧ ([0x12, 0x00] : List Byte).length ≤ 3584 := by decide

/-- A running core with `FONT_BASE` at 0x050 meets the invariants. -/
def moved : State :=
  { State.cold { Config.default with fontBase := 0x050 } with
    everLoaded := true, romLoaded := true, acc := 16, activity := .cycles 1 30 }

theorem moved_inv : moved.Inv where
  pcRange := by decide
  idxRange := by decide
  stackRange := by decide
  accNonneg := by decide +kernel
  accSmall := fun _ => by decide +kernel
  romLength := by decide
  loadedEver := by decide
  waitLoaded := by decide
  activeLoaded := by decide
  elapsedNonneg := fun n e h => by
    have : Activity.cycles 1 30 = .cycles n e := h
    cases this
    decide +kernel
  unloadedBlank := by decide
  memWf := nil_wf _
  cfgValid := by decide

/-- The invariants without a ROM: the same parameters, nothing loaded. -/
theorem unloaded_inv : (State.cold { Config.default with fontBase := 0x050 }).Inv where
  pcRange := by decide
  idxRange := by decide
  stackRange := by decide
  accNonneg := by decide +kernel
  accSmall := fun _ => by decide +kernel
  romLength := by decide
  loadedEver := by decide
  waitLoaded := by decide
  activeLoaded := by decide
  elapsedNonneg := fun _ _ h => by cases h
  unloadedBlank := fun _ => rfl
  memWf := nil_wf _
  cfgValid := by decide

/-- A framebuffer with every pixel lit. -/
def lit : Frame := Vector.replicate 32 (BitVec.allOnes 64)

/-- A blank grid without a ROM; a `00E0` and a `RESET` that change a lit framebuffer. -/
theorem witness_ReadDisplayIsASnapshot :
    ((State.cold { Config.default with fontBase := 0x050 }).Inv ∧
      (State.cold { Config.default with fontBase := 0x050 }).romLoaded = false ∧
      (State.cold { Config.default with fontBase := 0x050 }).activity = .idle) ∧
    (∃ t, run1 0x00E0 { State.reset with fb := lit } = .next t ∧ t.fb ≠ lit) ∧
    (∃ t, step (told .reset { loaded with fb := lit }) = .next t ∧ t.fb ≠ lit) :=
  ⟨⟨unloaded_inv, rfl, rfl⟩, ⟨_, rfl, by decide +kernel⟩, ⟨_, rfl, by decide +kernel⟩⟩

theorem witness_StepKeepsInvariant : moved.Inv ∧ ∃ t, step moved = .next t := ⟨moved_inv, _, rfl⟩

/-- A step that executes a `CXNN`, one that executes another instruction, and one that executes none. -/
theorem witness_ParametersFixedDrawsFresh :
    (fetches (State.reset.withFetchWord 16 0xC3FF) ∧
      decodeWord (wordAtPc (State.reset.withFetchWord 16 0xC3FF)) = some (.rnd 3 0xFF) ∧
      ∃ t, step (State.reset.withFetchWord 16 0xC3FF) = .next t) ∧
    (¬(∃ x nn, fetches running ∧ decodeWord (wordAtPc running) = some (.rnd x nn)) ∧ ∃ t, step running = .next t) ∧
    (¬(∃ x nn, fetches State.reset ∧ decodeWord (wordAtPc State.reset) = some (.rnd x nn)) ∧
      ∃ t, step State.reset = .next t) := by
  refine ⟨⟨⟨⟨0, 0, by decide⟩, by decide⟩, by decide, _, rfl⟩, ⟨?_, _, rfl⟩, ⟨?_, _, rfl⟩⟩
  · rintro ⟨x, nn, -, h⟩
    have : decodeWord (wordAtPc running) = some (.addReg 1 2) := by decide
    rw [this] at h
    cases h
  · rintro ⟨x, nn, ⟨⟨k, e, h⟩, -⟩, -⟩
    cases h

/-- Each unit's own writer changes it: the hypotheses of the clauses, one by one. -/
theorem witness_EachUnitHasItsWriters :
    (∃ t, exec (.ldI 0x123) running = .next t ∧ t.idx ≠ running.idx) ∧
    (∃ t, exec (.call 0x345) running = .next t ∧ t.sp ≠ running.sp) ∧
    (∃ t, exec (.ldB 1) running = .next t ∧ t.mem ≠ running.mem) ∧
    (∃ t, exec .cls { running with fb := Vector.replicate 32 1 } = .next t ∧ t.fb ≠ Vector.replicate 32 1) ∧
    (∃ t, exec (.ldDtVx 1) running = .next t ∧ t.dt ≠ running.dt) ∧
    (∃ t, exec (.ldStVx 1) running = .next t ∧ t.st ≠ running.st) ∧
    (∃ t, exec (.ldVxK 1) running = .next t ∧ t.wait ≠ running.wait) ∧
    (∃ t, exec (.jp 0x345) running = .next t ∧ t.pc ≠ running.pc) :=
  ⟨⟨_, rfl, by decide⟩, ⟨_, rfl, by decide⟩, ⟨_, rfl, by decide⟩, ⟨_, rfl, by decide +kernel⟩, ⟨_, rfl, by decide⟩,
    ⟨_, rfl, by decide⟩, ⟨_, rfl, by decide⟩, ⟨_, rfl, by decide⟩⟩

theorem witness_HostStateOutOfReach : ∃ t, exec (.addReg 1 2) running = .next t := ⟨_, rfl⟩

/-- Each instruction that reports; and a step for each bit, and one that clears them. -/
theorem witness_ErrBitsAreSticky :
    ((∃ t, exec (.sys 0x123) running = .next t ∧ t.err ≠ running.err) ∧
      (∃ t, exec .ret running = .next t ∧ t.err ≠ running.err) ∧
      (∃ t, exec (.call 0x345) { running with sp := 16 } = .next t ∧ t.err ≠ running.err)) ∧
    (∃ t, run1 0x5121 State.reset = .next t ∧ t.err = 0b0001) ∧ (∃ t, run1 0x00EE State.reset = .next t ∧ t.err = 0b0010) ∧
    (∃ t, run1 0x2345 { State.reset with sp := 16 } = .next t ∧ t.err = 0b0100) ∧
    (∃ t, step (told (.load (List.replicate 3585 0)) State.reset) = .next t ∧ t.err = 0b1000) ∧
    ∃ t, step (told .reset { loaded with err := 0b0111 }) = .next t ∧ t.err = 0 :=
  ⟨⟨⟨_, rfl, by decide⟩, ⟨_, rfl, by decide⟩, ⟨_, rfl, by decide⟩⟩, ⟨_, rfl, by decide⟩, ⟨_, rfl, by decide⟩,
    ⟨_, rfl, by decide⟩, ⟨_, rfl, by decide +kernel⟩, ⟨_, rfl, by decide⟩⟩

theorem witness_ProgramCannotSeeHostState :
    let s' := { running with st := 9, acc := 3, err := 0b1111, rom := [1], romLoaded := false, inbox := [.reload] }
    s' = { running with
      st := s'.st, acc := s'.acc, err := s'.err, rom := s'.rom, everLoaded := s'.everLoaded, romLoaded := s'.romLoaded,
      inbox := s'.inbox, activity := s'.activity, output := s'.output } := rfl

end Sys2Proof.Tests
end

/-! PROOFS. Every step is total, and reports at most once (00_scope R8; 60_exceptions R200, R207). -/

namespace Sys2Proof.Machine

open Sys2Proof

/-! ### What an instruction does to `ERR` and to the records returned -/

/-- The outcome, from `s`, is a next state that either raises no error condition (`ERR` and the output stand) or is `s`
with one report and nothing else changed (R200). -/
def CompletesFrom (s : State) (o : Result) : Prop :=
  ∃ t, o = .next t ∧ ((t.err = s.err ∧ t.output = s.output) ∨ ∃ r, t = s.report r)

theorem CompletesFrom.quiet {s t : State} (herr : t.err = s.err) (hout : t.output = s.output) :
    CompletesFrom s (.next t) :=
  ⟨t, rfl, .inl ⟨herr, hout⟩⟩

theorem CompletesFrom.reports (s : State) (r : Report) : CompletesFrom s (.next (s.report r)) :=
  ⟨_, rfl, .inr ⟨r, rfl⟩⟩

theorem skipIf_completes (s : State) (c : Bool) : CompletesFrom s (.next (s.skipIf c)) := by
  obtain ⟨frame, -⟩ := skipIf_spec s c
  rw [frame]
  exact .quiet rfl rfl

theorem writeBytes_completes (s : State) (a : Word) (bs : List Byte) :
    CompletesFrom s (.next (s.writeBytes a bs)) := by
  rw [writeBytes_frame]
  exact .quiet rfl rfl

theorem execRet_completes (s : State) : CompletesFrom s (execRet s) := by
  rw [execRet]
  rcases Nat.eq_zero_or_pos s.sp.val with h | h
  · rw [pop_none s h]
    exact .reports s _
  · obtain ⟨t, hpop, frame, -⟩ := pop_some s h
    rw [hpop, frame]
    exact .quiet rfl rfl

theorem execCall_completes (nnn : Addr) (s : State) : CompletesFrom s (execCall nnn s) := by
  rw [execCall]
  rcases Nat.lt_or_ge s.sp.val 16 with h | h
  · obtain ⟨t, hpush, frame, -⟩ := push_some s s.pc h
    rw [hpush, frame]
    exact .quiet rfl rfl
  · rw [push_none s s.pc (by omega)]
    exact .reports s _

theorem execDrw_completes (x y n : Nib) (s : State) : CompletesFrom s (execDrw x y n s) := by
  have hx : s.originX x < 64 := Nat.mod_lt _ (by decide)
  have hy : s.originY y < 32 := Nat.mod_lt _ (by decide)
  have drawn := drawSprite_drawn (s.setV regF 0) _ _ n.toNat hx hy (by omega)
  rw [execDrw, drawn.frame]
  exact .quiet rfl rfl

/-- Every instruction completes, with at most one report. -/
theorem exec_completes (i : Instr) (s : State) : CompletesFrom s (exec i s) := by
  cases i
  case ret => exact execRet_completes s
  case sys nnn => exact .reports s _
  case call nnn => exact execCall_completes nnn s
  case seImm x nn => exact skipIf_completes s _
  case sneImm x nn => exact skipIf_completes s _
  case seReg x y => exact skipIf_completes s _
  case sneReg x y => exact skipIf_completes s _
  case skp x => exact skipIf_completes s _
  case sknp x => exact skipIf_completes s _
  case drw x y n => exact execDrw_completes x y n s
  case ldB x => exact writeBytes_completes s s.idx _
  case stRegs x => exact writeBytes_completes s s.idx _
  all_goals exact .quiet rfl rfl

/-! ### Records added -/

/-- From `s` to `t`, at most one record joins those returned so far. -/
def AddsAtMostOneReport (s t : State) : Prop :=
  t.output.reports = s.output.reports ∨ ∃ r, t.output.reports = s.output.reports ++ [r]

theorem AddsAtMostOneReport.of_output {s t : State} (h : t.output = s.output) : AddsAtMostOneReport s t :=
  .inl (congrArg Output.reports h)

/-- An instruction run on a state with the output of `s` adds at most one record to those of `s`. -/
theorem CompletesFrom.addsAtMostOneReport {s u : State} {o : Result} (h : CompletesFrom u o)
    (hout : u.output = s.output) : ∃ t, o = .next t ∧ AddsAtMostOneReport s t := by
  obtain ⟨t, ht, ⟨-, quiet⟩ | ⟨r, rfl⟩⟩ := h
  · exact ⟨t, ht, .of_output (quiet.trans hout)⟩
  · exact ⟨_, ht, .inr ⟨r, by rw [State.report_output, hout]⟩⟩

/-- A cycle attempt is total (R181): a waiting core does nothing, a running one executes the word it fetched. -/
theorem cycleAttempt_total (s : State) : ∃ t, cycleAttempt s = .next t ∧ AddsAtMostOneReport s t := by
  cases hw : s.wait with
  | some r => exact ⟨s, cycleAttempt_waiting hw, .of_output rfl⟩
  | none =>
    rw [cycleAttempt_running hw]
    cases hd : decodeWord s.fetchWord with
    | some i =>
      rw [cycle_decoded hd]
      exact (exec_completes i s.afterFetch).addsAtMostOneReport s.afterFetch_output
    | none =>
      rw [cycle_unrecognised hd]
      exact (CompletesFrom.reports s.afterFetch _).addsAtMostOneReport s.afterFetch_output

theorem tickTurn_output (s : State) : s.tickTurn.output = s.output := by
  rcases le_or_gt tickMs s.acc with h | h
  · rw [tickTurn_tick h]
  · rw [tickTurn_done h]

/-! ### Host operations -/

theorem beginAdvance_output (s : State) (e : Rat) : (s.beginAdvance e).output = s.output := by
  cases h : s.romLoaded
  · rw [beginAdvance_unloaded h]
  · rw [beginAdvance_loaded h]

theorem setKeyNib_output (s : State) (k : Nib) (p : Bool) : (s.setKeyNib k p).output = s.output := by
  unfold State.setKeyNib
  split <;> rfl

theorem setKey_output (s : State) (index : Int) (p : Bool) : (s.setKey index p).output = s.output := by
  unfold State.setKey
  split
  · rfl
  · exact setKeyNib_output s _ p

/-- `LOAD` reports exactly a sequence that does not fit (R205, R233). -/
theorem load_addsAtMostOneReport (s : State) (bytes : List Byte) : AddsAtMostOneReport s (s.load bytes) := by
  rw [load_eq]
  by_cases h : romMax < bytes.length
  · exact .inr ⟨.romtrunc bytes.length, congrArg Output.reports (if_pos h)⟩
  · exact .of_output (if_neg h)

theorem reload_addsAtMostOneReport (s : State) : AddsAtMostOneReport s s.reload := by
  unfold State.reload
  split
  · exact load_addsAtMostOneReport s s.rom
  · exact .of_output rfl

theorem hostOp_addsAtMostOneReport (op : HostOp) (s : State) : AddsAtMostOneReport s (hostOp op s) := by
  cases op with
  | coldReset => exact .of_output rfl
  | reset => exact .of_output rfl
  | load bytes => exact load_addsAtMostOneReport s bytes
  | reload => exact reload_addsAtMostOneReport s
  | advance e => exact .of_output (beginAdvance_output s e)
  | setKey index pressed => exact .of_output (setKey_output s index pressed)
  | readDisplay => exact .inl rfl
  | readStatus => exact .inl rfl

/-! ### The step -/

/-- Every step is total: it adds at most one record, to those returned so far or, at the start of a host operation, to
none (R8, R207). -/
theorem step_total (s : State) :
    ∃ t, step s = .next t ∧
      (AddsAtMostOneReport s t ∨ ∃ rest, AddsAtMostOneReport (s.takeOp rest) t) := by
  cases ha : s.activity with
  | cycles left e =>
    cases left with
    | zero => exact ⟨_, step_endCycles ha, .inl (.of_output (s.endCycles_output e))⟩
    | succ k =>
      rw [step_cycles ha]
      obtain ⟨t, ht, hadds⟩ := cycleAttempt_total { s with activity := .cycles k e }
      exact ⟨t, ht, .inl hadds⟩
  | ticks => exact ⟨_, step_ticks ha, .inl (.of_output (tickTurn_output s))⟩
  | idle =>
    cases hi : s.inbox with
    | nil => exact ⟨s, step_idle ha hi, .inl (.of_output rfl)⟩
    | cons op rest => exact ⟨_, step_hostOp ha hi, .inr ⟨rest, hostOp_addsAtMostOneReport op _⟩⟩

/-- Settles O53: a step that starts a host operation starts from no records at all, any other adds to those of `s`. -/
theorem stepNeverStops : Obligations.StepNeverStops := by
  intro s
  obtain ⟨t, ht, (kept | added) | ⟨rest, kept | added⟩⟩ := step_total s
  · exact ⟨t, ht, .inl kept⟩
  · exact ⟨t, ht, .inr (.inl added)⟩
  · exact ⟨t, ht, .inr (.inr (.inl kept))⟩
  · exact ⟨t, ht, .inr (.inr (.inr added))⟩

end Sys2Proof.Machine

/-! PROOFS. The two jumps (40_control_flow R92, R94): only PC changes, and its value is the target's. -/

namespace Sys2Proof.Machine

open Sys2Proof

@[simp] theorem exec_jp (nnn : Addr) (s : State) :
    exec (.jp nnn) s = .next { s with pc := wideAddr nnn } := rfl

@[simp] theorem exec_jpV0 (nnn : Addr) (s : State) :
    exec (.jpV0 nnn) s = .next { s with pc := s.offsetTarget nnn } := rfl

/-- Settles O18: the target is the word's 12 bits, which no widening changes. -/
theorem jump : Obligations.Jump := by
  intro s nnn
  exact ⟨_, exec_jp nnn s, rfl, wideAddr_toNat nnn⟩

/-- Settles O19: the target is the sum of `NNN` and `V[0]`, masked; `offsetTarget_toNat` gives its value. -/
theorem jumpWithOffset : Obligations.JumpWithOffset := by
  intro s nnn
  exact ⟨_, exec_jpV0 nnn s, rfl, offsetTarget_toNat s nnn⟩

end Sys2Proof.Machine

/-! PROOFS. The two immediate instructions (41_alu R110, R111): one write of `V[X]`, VF only as the destination. -/

namespace Sys2Proof.Machine

open Sys2Proof

@[simp] theorem exec_ldImm (x : Nib) (nn : Byte) (s : State) : exec (.ldImm x nn) s = .next (s.setV x nn) := rfl

@[simp] theorem exec_addImm (x : Nib) (nn : Byte) (s : State) :
    exec (.addImm x nn) s = .next (s.setV x (s.getV x + nn)) := rfl

/-- A write of one register with its frame (R10): the companion of `setVFlag_spec` for instructions that write no flag. -/
theorem setV_spec (s : State) (x : Nib) (b : Byte) :
    s.setV x b = { s with v := (s.setV x b).v } ∧ (s.setV x b).getV x = b ∧
      ∀ r, r ≠ x → (s.setV x b).getV r = s.getV r :=
  ⟨rfl, getV_setV_self s x b, fun _ h => getV_setV_ne s b h⟩

/-- Settles O10: the next state is one write of `V[X]`, whose result and frame are `setV_spec`. -/
theorem loadImmediate : Obligations.LoadImmediate := by
  intro s x nn
  exact ⟨_, exec_ldImm x nn s, setV_spec s x nn⟩

/-- Settles O11: the byte written is the 8-bit sum, whose value is the sum modulo 256; no other register is written. -/
theorem addImmediateWraps : Obligations.AddImmediateWraps := by
  intro s x nn
  obtain ⟨frame, written, others⟩ := setV_spec s x (s.getV x + nn)
  refine ⟨_, exec_addImm x nn s, frame, ?_, others⟩
  rw [written, BitVec.toNat_add]

end Sys2Proof.Machine

/-! PROOFS. The load of the index register (42_index_memory R130): only I changes, and its value is the word's 12 bits. -/

namespace Sys2Proof.Machine

open Sys2Proof

@[simp] theorem exec_ldI (nnn : Addr) (s : State) :
    exec (.ldI nnn) s = .next { s with idx := wideAddr nnn } := rfl

/-- Settles O26: I takes the word's 12 bits, which no widening changes. -/
theorem loadIndex : Obligations.LoadIndex := by
  intro s nnn
  exact ⟨_, exec_ldI nnn s, rfl, wideAddr_toNat nnn⟩

end Sys2Proof.Machine

/-! PROOFS. The display (43_display R150, R153): `00E0` blanks it, `READ_DISPLAY` shows it, and what else writes it. -/

namespace Sys2Proof.Machine

open Sys2Proof

/-! ### The blank framebuffer -/

@[simp] theorem exec_cls (s : State) : exec .cls s = .next { s with fb := Vector.replicate 32 0 } := rfl

/-- A framebuffer of zero rows has every pixel off (R27). -/
theorem pixel_of_blank {s : State} (h : s.fb = Vector.replicate 32 0) (y : Fin 32) (x : Fin 64) :
    s.pixel y x = false := by
  simp [State.pixel, h]

/-- Settles O34: the framebuffer alone is written, with zero rows. -/
theorem clearDisplay : Obligations.ClearDisplay := by
  intro s
  exact ⟨_, exec_cls s, rfl, pixel_of_blank rfl⟩

/-! ### The instructions that write the framebuffer -/

@[simp] theorem skipIf_fb (s : State) (c : Bool) : (s.skipIf c).fb = s.fb := by
  rw [(skipIf_spec s c).1]

@[simp] theorem writeBytes_fb (s : State) (a : Word) (bs : List Byte) : (s.writeBytes a bs).fb = s.fb := by
  rw [writeBytes_frame]

/-- Whatever state the outcome leads to, its framebuffer is that of `s`. -/
def KeepsFb (s : State) (o : Result) : Prop := ∀ t, o = .next t → t.fb = s.fb

theorem KeepsFb.next {s t : State} (h : t.fb = s.fb) : KeepsFb s (.next t) := by
  rintro _ ⟨⟩
  exact h

theorem execRet_keepsFb (s : State) : KeepsFb s (execRet s) := by
  rw [execRet]
  rcases Nat.eq_zero_or_pos s.sp.val with h | h
  · rw [pop_none s h]
    exact .next rfl
  · obtain ⟨t, hpop, frame, -⟩ := pop_some s h
    rw [hpop, frame]
    exact .next rfl

theorem execCall_keepsFb (nnn : Addr) (s : State) : KeepsFb s (execCall nnn s) := by
  rw [execCall]
  rcases Nat.lt_or_ge s.sp.val 16 with h | h
  · obtain ⟨t, hpush, frame, -⟩ := push_some s s.pc h
    rw [hpush, frame]
    exact .next rfl
  · rw [push_none s s.pc (by omega)]
    exact .next rfl

/-- The instructions that write the framebuffer (R150, R151). -/
def WritesScreen (i : Instr) : Prop := i = .cls ∨ ∃ x y n, i = .drw x y n

/-- Every instruction but `00E0` and `DXYN` leaves the framebuffer alone. -/
theorem exec_keepsFb {i : Instr} (h : ¬WritesScreen i) (s : State) : KeepsFb s (exec i s) := by
  cases i
  case cls => exact absurd (.inl rfl) h
  case drw x y n => exact absurd (.inr ⟨x, y, n, rfl⟩) h
  case ret => exact execRet_keepsFb s
  case call nnn => exact execCall_keepsFb nnn s
  case seImm x nn => exact .next (skipIf_fb s _)
  case sneImm x nn => exact .next (skipIf_fb s _)
  case seReg x y => exact .next (skipIf_fb s _)
  case sneReg x y => exact .next (skipIf_fb s _)
  case skp x => exact .next (skipIf_fb s _)
  case sknp x => exact .next (skipIf_fb s _)
  case ldB x => exact .next (writeBytes_fb s s.idx _)
  case stRegs x => exact .next (writeBytes_fb s s.idx _)
  all_goals exact .next rfl

/-- A cycle attempt that changes the framebuffer is the cycle of a `00E0` or a `DXYN`. -/
theorem cycleAttempt_fb {s t : State} (ht : cycleAttempt s = .next t) (hfb : t.fb ≠ s.fb) :
    s.wait = none ∧ ∃ i, decodeWord s.fetchWord = some i ∧ WritesScreen i := by
  cases hw : s.wait with
  | some r =>
    rw [cycleAttempt_waiting hw] at ht
    exact absurd (KeepsFb.next rfl t ht) hfb
  | none =>
    rw [cycleAttempt_running hw] at ht
    cases hd : decodeWord s.fetchWord with
    | none =>
      rw [cycle_unrecognised hd] at ht
      exact absurd (KeepsFb.next rfl t ht) hfb
    | some i =>
      rw [cycle_decoded hd] at ht
      refine ⟨rfl, i, rfl, ?_⟩
      by_contra hi
      exact hfb (exec_keepsFb hi s.afterFetch t ht)

/-! ### The host operations that write the framebuffer -/

theorem load_fb (s : State) (bytes : List Byte) : (s.load bytes).fb = Vector.replicate 32 0 := by
  rw [load_eq]
  rfl

theorem setKeyNib_fb (s : State) (k : Nib) (p : Bool) : (s.setKeyNib k p).fb = s.fb := by
  unfold State.setKeyNib
  split <;> rfl

theorem setKey_fb (s : State) (index : Int) (p : Bool) : (s.setKey index p).fb = s.fb := by
  unfold State.setKey
  split
  · rfl
  · exact setKeyNib_fb s _ p

theorem beginAdvance_fb (s : State) (e : Rat) : (s.beginAdvance e).fb = s.fb := by
  cases h : s.romLoaded
  · rw [beginAdvance_unloaded h]
  · rw [beginAdvance_loaded h]

theorem tickTurn_fb (s : State) : s.tickTurn.fb = s.fb := by
  rcases le_or_gt tickMs s.acc with h | h
  · rw [tickTurn_tick h]
  · rw [tickTurn_done h]

/-- The host operations that begin with a reset (R230, R231, R233, R234). -/
def HostOp.Resets (op : HostOp) : Prop :=
  op = .coldReset ∨ op = .reset ∨ op = .reload ∨ ∃ bytes, op = .load bytes

/-- A host operation that changes the framebuffer resets the core and leaves a blank screen; `RELOAD` before any `LOAD`
is no exception, since it changes nothing (R234). -/
theorem hostOp_fb {op : HostOp} {s : State} (h : (hostOp op s).fb ≠ s.fb) :
    (hostOp op s).fb = Vector.replicate 32 0 ∧ op.Resets := by
  cases op with
  | coldReset => exact ⟨rfl, .inl rfl⟩
  | reset => exact ⟨rfl, .inr (.inl rfl)⟩
  | load bytes => exact ⟨load_fb s bytes, .inr (.inr (.inr ⟨bytes, rfl⟩))⟩
  | reload =>
    refine ⟨?_, .inr (.inr (.inl rfl))⟩
    rw [hostOp, State.reload] at h ⊢
    split at h
    · rw [if_pos ‹_›, load_fb]
    · exact absurd rfl h
  | advance e => exact absurd (beginAdvance_fb s e) h
  | setKey index pressed => exact absurd (setKey_fb s index pressed) h
  | readDisplay => exact absurd rfl h
  | readStatus => exact absurd rfl h

/-! ### The step -/

/-- A step that changes the framebuffer is the cycle of an instruction that draws, or the start of a host operation that
blanks it. -/
theorem step_fb {s t : State} (ht : step s = .next t) (hfb : t.fb ≠ s.fb) :
    (∃ k e i, s.activity = .cycles (k + 1) e ∧ s.wait = none ∧ decodeWord s.fetchWord = some i ∧ WritesScreen i) ∨
    (t.fb = Vector.replicate 32 0 ∧ s.activity = .idle ∧ ∃ op rest, s.inbox = op :: rest ∧ op.Resets) := by
  cases ha : s.activity with
  | cycles left e =>
    cases left with
    | zero =>
      rw [step_endCycles ha] at ht
      exact absurd (KeepsFb.next (s.endCycles_fb e) t ht) hfb
    | succ k =>
      rw [step_cycles ha] at ht
      obtain ⟨hw, i, hi⟩ := cycleAttempt_fb ht hfb
      exact .inl ⟨k, e, i, rfl, hw, hi⟩
  | ticks =>
    rw [step_ticks ha] at ht
    exact absurd (KeepsFb.next (tickTurn_fb s) t ht) hfb
  | idle =>
    cases hi : s.inbox with
    | nil =>
      rw [step_idle ha hi] at ht
      exact absurd (KeepsFb.next rfl t ht) hfb
    | cons op rest =>
      rw [step_hostOp ha hi] at ht
      cases ht
      obtain ⟨blank, resets⟩ := hostOp_fb hfb
      exact .inr ⟨blank, rfl, op, rest, rfl, resets⟩

/-- Settles O51: `READ_DISPLAY` writes the output alone, and without a ROM the framebuffer it returns is the blank one of
the invariant; the writers of the framebuffer are those of `step_fb`. -/
theorem readDisplayIsASnapshot : Obligations.ReadDisplayIsASnapshot := by
  refine ⟨fun s rest ha => ?_, fun s t ht hfb => ?_⟩
  · refine ⟨_, step_inbox ha, rfl, rfl, fun inv unloaded => ?_⟩
    exact congrArg some (inv.unloadedBlank unloaded)
  · obtain ⟨k, e, i, ha, hw, hi, draws⟩ | blanked := step_fb ht hfb
    · rw [fetchWord_eq] at hi
      exact .inl ⟨k, e, i, ha, hw, hi, draws⟩
    · exact .inr blanked

end Sys2Proof.Machine

/-! PROOFS. The cycle attempt and the key-wait (45_timers_pacing R181): attempts of a waiting core only use up the count
of those left. -/

namespace Sys2Proof.Machine

open Sys2Proof

@[simp] theorem exec_ldVxK (x : Nib) (s : State) : exec (.ldVxK x) s = .next { s with wait := some x } := rfl

/-- All the attempts left of a call on a waiting core: each uses up the count by one, and the core still waits (R181). -/
theorem run_waiting {s : State} {k : Nat} {e : Rat} {r : Nib} (ha : s.activity = .cycles k e) (hw : s.wait = some r) :
    Host.Core.run Sys2Proof.core k s = .next { s with activity := .cycles 0 e } := by
  induction k generalizing s with
  | zero =>
    rw [← ha]
    rfl
  | succ k ih =>
    rw [run_next (step_waiting ha hw)]
    exact ih (s := { s with activity := .cycles k e }) rfl hw

/-- `ADVANCE` on a loaded core starts the attempts its elapsed time gives, in a key-wait or not (R180, R181). -/
theorem step_advance_loaded {s : State} {e : Rat} {rest : List HostOp} (ha : s.activity = .idle)
    (hi : s.inbox = .advance e :: rest) (loaded : s.romLoaded = true) :
    step s = .next { s with
      activity := .cycles (attemptCount s.cfg (clampElapsed e)) (clampElapsed e), inbox := rest, output := .empty } := by
  rw [step_hostOp ha hi, hostOp, beginAdvance_loaded (s := s.takeOp rest) loaded]
  rfl

/-- Settles O9: a running core's attempt is `step_running`; a waiting one's, and those after an `FX0A`, which leaves the
core waiting, are `run_waiting`; the start of `ADVANCE` does not look at the key-wait. -/
theorem cycleAttemptHonoursKeyWait : Obligations.CycleAttemptHonoursKeyWait := by
  refine ⟨fun s k e ha hw => step_running ha hw, fun s k e r ha hw => run_waiting ha hw, fun s k e x ha => ?_,
    fun s e rest r ha hi loaded _ => step_advance_loaded ha hi loaded⟩
  exact ⟨_, exec_ldVxK x s, run_waiting (s := { s with wait := some x }) ha rfl⟩

end Sys2Proof.Machine

/-! PROOFS. Invalid external input (60_exceptions R206): a negative elapsed time is clamped to zero, a key index outside
0..15 is ignored. -/

namespace Sys2Proof.Machine

open Sys2Proof

theorem clampElapsed_of_neg {e : Rat} (h : e < 0) : clampElapsed e = 0 := if_pos h

/-- `ADVANCE` sees its elapsed time only through the clamp, which takes a negative one to zero (R180, R206). -/
theorem beginAdvance_of_neg {e : Rat} (h : e < 0) (s : State) : s.beginAdvance e = s.beginAdvance 0 := by
  have clamped : clampElapsed e = clampElapsed 0 := by
    rw [clampElapsed_of_neg h, clampElapsed_of_nonneg le_rfl]
  rw [State.beginAdvance, State.beginAdvance, clamped]

theorem setKey_of_out_of_range {k : Int} (h : k < 0 ∨ 15 < k) (s : State) (p : Bool) : s.setKey k p = s := if_pos h

/-- Settles O46: either operation starts as `step_inbox` says, and its own effect on the invalid input is
`beginAdvance_of_neg` or `setKey_of_out_of_range`. -/
theorem invalidHostInputIgnored : Obligations.InvalidHostInputIgnored := by
  refine ⟨fun s e rest negative idle => ?_, fun s k p rest outOfRange idle => ?_⟩
  · rw [step_inbox idle, step_inbox idle, hostOp, hostOp, beginAdvance_of_neg negative]
  · rw [step_inbox idle, hostOp, setKey_of_out_of_range outOfRange]

end Sys2Proof.Machine

/-! PROOFS. `RELOAD` (70_reset_and_hazards R234): it keeps the state of a core never loaded, and any other it loads
again from the snapshot, whose bytes always fit. -/

namespace Sys2Proof.Machine

open Sys2Proof

theorem reload_never_loaded {s : State} (h : s.everLoaded = false) : s.reload = s := if_neg (by simp [h])

theorem reload_ever_loaded {s : State} (h : s.everLoaded = true) : s.reload = s.load s.rom := if_pos h

@[simp] theorem load_everLoaded (s : State) (bytes : List Byte) : (s.load bytes).everLoaded = true := by
  rw [load_eq]

@[simp] theorem load_rom (s : State) (bytes : List Byte) : (s.load bytes).rom = bytes.take romMax := by
  rw [load_eq]

@[simp] theorem load_activity (s : State) (bytes : List Byte) : (s.load bytes).activity = s.activity := by
  rw [load_eq]
  rfl

@[simp] theorem load_inbox (s : State) (bytes : List Byte) : (s.load bytes).inbox = s.inbox := by
  rw [load_eq]
  rfl

@[simp] theorem load_cfg (s : State) (bytes : List Byte) : (s.load bytes).cfg = s.cfg := by
  rw [load_eq]
  rfl

/-- What is written after a reset gives a memory that depends on the parameters alone (R232). -/
theorem reinit_image_congr {s t : State} (same : s.cfg = t.cfg) (a : Word) (bs : List Byte) :
    (s.reinit.writeBytes a bs).mem = (t.reinit.writeBytes a bs).mem :=
  writeBytes_mem_congr (s := s.reinit) (t := t.reinit) same rfl a bs

/-- `LOAD` of a sequence that fits raises no error condition (R205). -/
theorem load_fits_quiet (s : State) {bytes : List Byte} (h : bytes.length ≤ romMax) :
    (s.load bytes).err = 0 ∧ (s.load bytes).output = s.output := by
  rw [load_eq, if_neg (not_lt.2 h), if_neg (not_lt.2 h)]
  exact ⟨rfl, rfl⟩

/-- The bytes a `LOAD` retains are placed as the whole sequence is, and never reported (R233). -/
theorem load_retained (s : State) (bytes : List Byte) :
    s.load (bytes.take romMax) = s.reinit.placeRom bytes := by
  rw [load_fits s (List.length_take_le _ _), State.placeRom, State.placeRom, List.take_take, min_self]

/-- `RELOAD` right after `LOAD` (R234): the reset phase forgets the first loading, and the second places the same
bytes, so only the report of a sequence that was too long is missing. -/
theorem reload_after_load (s : State) (bytes : List Byte) (ops rest : List HostOp) :
    (((s.takeOp ops).load bytes).takeOp rest).reload =
      { (s.takeOp rest).load bytes with err := 0, output := .empty } := by
  have ever : (((s.takeOp ops).load bytes).takeOp rest).everLoaded = true := load_everLoaded _ bytes
  have snapshot : (((s.takeOp ops).load bytes).takeOp rest).rom = bytes.take romMax := load_rom _ bytes
  have image := reinit_image_congr (s := ((s.takeOp ops).load bytes).takeOp rest) (t := s.takeOp rest)
    (load_cfg _ bytes) 0x200 (bytes.take romMax)
  rw [reload_ever_loaded ever, snapshot, load_retained, placeRom_eq, image, load_eq, load_eq]
  rfl

/-- The two calls as steps: `LOAD` returns, then `RELOAD` starts with nothing returned yet (R207, R234). -/
theorem run_load_reload {s : State} (idle : s.activity = .idle) (bytes : List Byte) (rest : List HostOp) :
    Host.Core.run Sys2Proof.core 2 { s with inbox := .load bytes :: .reload :: rest } =
      .next { (s.takeOp rest).load bytes with err := 0, output := .empty } := by
  have idle' : ((s.takeOp (.reload :: rest)).load bytes).activity = .idle := (load_activity _ bytes).trans idle
  have next : ((s.takeOp (.reload :: rest)).load bytes).inbox = .reload :: rest := load_inbox _ bytes
  rw [run_next (step_inbox idle), ← takeOp_eq, hostOp, run_next (step_hostOp idle' next), hostOp, reload_after_load]
  rfl

/-- Settles O50: `RELOAD` starts as `step_inbox` says and is `LOAD` of the snapshot, or nothing; the two calls together
are `run_load_reload`, and `load_fits_quiet` is the case without a report. -/
theorem reloadReplaysLoad : Obligations.ReloadReplaysLoad := by
  refine ⟨fun s rest idle never => ?_, fun s rest idle ever => ?_, fun s bytes rest idle => ?_⟩
  · rw [step_inbox idle, hostOp, reload_never_loaded (s := { s with inbox := rest, output := .empty }) never]
  · rw [step_inbox idle, step_inbox idle, hostOp, hostOp,
      reload_ever_loaded (s := { s with inbox := rest, output := .empty }) ever]
  · exact ⟨_, step_inbox idle, run_load_reload idle bytes rest, load_fits_quiet (s.takeOp rest)⟩

end Sys2Proof.Machine

/-! PROOFS. Decoder and encoder agree in both directions (30_encoding R70 to R76). -/

namespace Sys2Proof.Machine

open Sys2Proof

/-! ### The decoder class by class (R74) -/

section
variable {w : Word}

theorem decodeWord_class0 (h : fieldC w = 0x0) : decodeWord w = some (decodeClass0 (fieldNNN w)) := by
  rw [decodeWord, h]; rfl

theorem decodeWord_class1 (h : fieldC w = 0x1) : decodeWord w = some (.jp (fieldNNN w)) := by
  rw [decodeWord, h]; rfl

theorem decodeWord_class2 (h : fieldC w = 0x2) : decodeWord w = some (.call (fieldNNN w)) := by
  rw [decodeWord, h]; rfl

theorem decodeWord_class3 (h : fieldC w = 0x3) : decodeWord w = some (.seImm (fieldX w) (fieldNN w)) := by
  rw [decodeWord, h]; rfl

theorem decodeWord_class4 (h : fieldC w = 0x4) : decodeWord w = some (.sneImm (fieldX w) (fieldNN w)) := by
  rw [decodeWord, h]; rfl

theorem decodeWord_class5 (h : fieldC w = 0x5) :
    decodeWord w = if fieldN w = 0 then some (.seReg (fieldX w) (fieldY w)) else none := by
  rw [decodeWord, h]; rfl

theorem decodeWord_class6 (h : fieldC w = 0x6) : decodeWord w = some (.ldImm (fieldX w) (fieldNN w)) := by
  rw [decodeWord, h]; rfl

theorem decodeWord_class7 (h : fieldC w = 0x7) : decodeWord w = some (.addImm (fieldX w) (fieldNN w)) := by
  rw [decodeWord, h]; rfl

theorem decodeWord_class8 (h : fieldC w = 0x8) :
    decodeWord w = decodeClass8 (fieldX w) (fieldY w) (fieldN w) := by
  rw [decodeWord, h]; rfl

theorem decodeWord_class9 (h : fieldC w = 0x9) :
    decodeWord w = if fieldN w = 0 then some (.sneReg (fieldX w) (fieldY w)) else none := by
  rw [decodeWord, h]; rfl

theorem decodeWord_classA (h : fieldC w = 0xA) : decodeWord w = some (.ldI (fieldNNN w)) := by
  rw [decodeWord, h]; rfl

theorem decodeWord_classB (h : fieldC w = 0xB) : decodeWord w = some (.jpV0 (fieldNNN w)) := by
  rw [decodeWord, h]; rfl

theorem decodeWord_classC (h : fieldC w = 0xC) : decodeWord w = some (.rnd (fieldX w) (fieldNN w)) := by
  rw [decodeWord, h]; rfl

theorem decodeWord_classD (h : fieldC w = 0xD) :
    decodeWord w = some (.drw (fieldX w) (fieldY w) (fieldN w)) := by
  rw [decodeWord, h]; rfl

theorem decodeWord_classE (h : fieldC w = 0xE) : decodeWord w = decodeClassE (fieldX w) (fieldNN w) := by
  rw [decodeWord, h]; rfl

theorem decodeWord_classF (h : fieldC w = 0xF) : decodeWord w = decodeClassF (fieldX w) (fieldNN w) := by
  rw [decodeWord, h]; rfl

end

/-- A word of class 8 decodes by its four nibbles (R72, R74). -/
theorem decodeWord_word8 (x y n : Nib) : decodeWord (wordXYN 0x8 x y n) = decodeClass8 x y n := by
  rw [decodeWord_class8 (fieldC_wordXYN ..), fieldX_wordXYN, fieldY_wordXYN, fieldN_wordXYN]

theorem decodeWord_wordE (x : Nib) (nn : Byte) : decodeWord (wordXNN 0xE x nn) = decodeClassE x nn := by
  rw [decodeWord_classE (fieldC_wordXNN ..), fieldX_wordXNN, fieldNN_wordXNN]

theorem decodeWord_wordF (x : Nib) (nn : Byte) : decodeWord (wordXNN 0xF x nn) = decodeClassF x nn := by
  rw [decodeWord_classF (fieldC_wordXNN ..), fieldX_wordXNN, fieldNN_wordXNN]

/-- The two words R74 takes out of class 0 are the two operands `wf` excludes. -/
theorem decodeClass0_of_sysOperandOk {nnn : Addr} (h : sysOperandOk nnn = true) :
    decodeClass0 nnn = .sys nnn := by
  obtain ⟨notCls, notRet⟩ : nnn ≠ 0x0E0 ∧ nnn ≠ 0x0EE := by simpa [sysOperandOk] using h
  rw [decodeClass0, if_neg notCls, if_neg notRet]

/-- Settles O2: the encoder writes the class and the fields where the decoder reads them; a function code leads to the
instruction's own branch of its class. -/
theorem decodeAfterEncode : Obligations.DecodeAfterEncode := by
  intro i wf
  cases i <;> rw [encode]
  case cls | ret => decide
  case sys nnn =>
    rw [decodeWord_class0 (fieldC_wordNNN ..), fieldNNN_wordNNN, decodeClass0_of_sysOperandOk wf]
  case jp nnn => rw [decodeWord_class1 (fieldC_wordNNN ..), fieldNNN_wordNNN]
  case call nnn => rw [decodeWord_class2 (fieldC_wordNNN ..), fieldNNN_wordNNN]
  case seImm x nn => rw [decodeWord_class3 (fieldC_wordXNN ..), fieldX_wordXNN, fieldNN_wordXNN]
  case sneImm x nn => rw [decodeWord_class4 (fieldC_wordXNN ..), fieldX_wordXNN, fieldNN_wordXNN]
  case seReg x y =>
    rw [decodeWord_class5 (fieldC_wordXYN ..), fieldN_wordXYN, if_pos rfl, fieldX_wordXYN, fieldY_wordXYN]
  case sneReg x y =>
    rw [decodeWord_class9 (fieldC_wordXYN ..), fieldN_wordXYN, if_pos rfl, fieldX_wordXYN, fieldY_wordXYN]
  case ldImm x nn => rw [decodeWord_class6 (fieldC_wordXNN ..), fieldX_wordXNN, fieldNN_wordXNN]
  case addImm x nn => rw [decodeWord_class7 (fieldC_wordXNN ..), fieldX_wordXNN, fieldNN_wordXNN]
  case ldI nnn => rw [decodeWord_classA (fieldC_wordNNN ..), fieldNNN_wordNNN]
  case jpV0 nnn => rw [decodeWord_classB (fieldC_wordNNN ..), fieldNNN_wordNNN]
  case rnd x nn => rw [decodeWord_classC (fieldC_wordXNN ..), fieldX_wordXNN, fieldNN_wordXNN]
  case drw x y n =>
    rw [decodeWord_classD (fieldC_wordXYN ..), fieldX_wordXYN, fieldY_wordXYN, fieldN_wordXYN]
  case ldReg | orReg | andReg | xorReg | addReg | sub | shr | subn | shl =>
    rw [decodeWord_word8]
    rfl
  case skp | sknp =>
    rw [decodeWord_wordE]
    rfl
  case ldVxDt | ldDtVx | ldStVx | addI | ldF | ldB | stRegs | ldRegs | ldVxK =>
    rw [decodeWord_wordF]
    rfl

/-! ### What a decoded instruction says of the word -/

/-- The instruction is well-formed and stands for the word. -/
def StandsFor (i : Instr) (w : Word) : Prop := i.wf = true ∧ encode i = w

section
variable {i j : Instr} {w : Word} {c : Nib} (h : decodeWord w = some i)
include h

/-- A word decodes to one instruction only, so it is enough that some instruction it decodes to stands for it. -/
theorem standsFor_of_decoded (hj : decodeWord w = some j) (wf : j.wf = true) (enc : encode j = w) : StandsFor i w := by
  obtain rfl : j = i := Option.some.inj (hj.symm.trans h)
  exact ⟨wf, enc⟩

theorem standsFor_of_NNN (hj : decodeWord w = some j) (hc : fieldC w = c) (wf : j.wf = true)
    (enc : encode j = wordNNN c (fieldNNN w)) : StandsFor i w :=
  standsFor_of_decoded h hj wf (by rw [enc, ← hc, word_of_C_NNN])

theorem standsFor_of_XNN (hj : decodeWord w = some j) (hc : fieldC w = c) (wf : j.wf = true)
    (enc : encode j = wordXNN c (fieldX w) (fieldNN w)) : StandsFor i w :=
  standsFor_of_decoded h hj wf (by rw [enc, ← hc, word_of_C_X_NN])

theorem standsFor_of_XYN (hj : decodeWord w = some j) (hc : fieldC w = c) (wf : j.wf = true)
    (enc : encode j = wordXYN c (fieldX w) (fieldY w) (fieldN w)) : StandsFor i w :=
  standsFor_of_decoded h hj wf (by rw [enc, ← hc, word_of_nibbles])

end

/-- Class 0 (R74): the two words taken out are the words of `CLS` and `RET`, every other operand is one of `0NNN`. -/
theorem decodeClass0_standsFor (nnn : Addr) :
    (decodeClass0 nnn).wf = true ∧ encode (decodeClass0 nnn) = wordNNN 0x0 nnn := by
  unfold decodeClass0
  split_ifs with notCls notRet
  · subst notCls; decide
  · subst notRet; decide
  · exact ⟨by simpa [Instr.wf, sysOperandOk] using ⟨notCls, notRet⟩, rfl⟩

theorem decodeClass8_standsFor {x y n : Nib} {i : Instr} (h : decodeClass8 x y n = some i) :
    i.wf = true ∧ encode i = wordXYN 0x8 x y n := by
  unfold decodeClass8 at h
  split at h <;> cases h
  all_goals exact ⟨rfl, congrArg (wordXYN 0x8 x y) (BitVec.eq_of_toNat_eq (Eq.symm ‹_›))⟩

theorem decodeClassE_standsFor {x : Nib} {nn : Byte} {i : Instr} (h : decodeClassE x nn = some i) :
    i.wf = true ∧ encode i = wordXNN 0xE x nn := by
  unfold decodeClassE at h
  split_ifs at h <;> cases h
  all_goals exact ⟨rfl, congrArg (wordXNN 0xE x) (Eq.symm ‹_›)⟩

theorem decodeClassF_standsFor {x : Nib} {nn : Byte} {i : Instr} (h : decodeClassF x nn = some i) :
    i.wf = true ∧ encode i = wordXNN 0xF x nn := by
  unfold decodeClassF at h
  split_ifs at h <;> cases h
  all_goals exact ⟨rfl, congrArg (wordXNN 0xF x) (Eq.symm ‹_›)⟩

theorem nib_cases (c : Nib) :
    c = 0x0 ∨ c = 0x1 ∨ c = 0x2 ∨ c = 0x3 ∨ c = 0x4 ∨ c = 0x5 ∨ c = 0x6 ∨ c = 0x7 ∨
    c = 0x8 ∨ c = 0x9 ∨ c = 0xA ∨ c = 0xB ∨ c = 0xC ∨ c = 0xD ∨ c = 0xE ∨ c = 0xF := by
  revert c
  decide

/-- Settles O3: a word is its class and its fields, and those are what the instruction it decodes to encodes. -/
theorem encodeAfterDecode : Obligations.EncodeAfterDecode := by
  intro w i h
  obtain hc | hc | hc | hc | hc | hc | hc | hc | hc | hc | hc | hc | hc | hc | hc | hc := nib_cases (fieldC w)
  · obtain ⟨wf, enc⟩ := decodeClass0_standsFor (fieldNNN w)
    exact standsFor_of_NNN h (decodeWord_class0 hc) hc wf enc
  · exact standsFor_of_NNN h (decodeWord_class1 hc) hc rfl rfl
  · exact standsFor_of_NNN h (decodeWord_class2 hc) hc rfl rfl
  · exact standsFor_of_XNN h (decodeWord_class3 hc) hc rfl rfl
  · exact standsFor_of_XNN h (decodeWord_class4 hc) hc rfl rfl
  · have hd := h
    rw [decodeWord_class5 hc] at h
    split_ifs at h with hn
    cases h
    exact standsFor_of_XYN hd hd hc rfl (by rw [encode, hn])
  · exact standsFor_of_XNN h (decodeWord_class6 hc) hc rfl rfl
  · exact standsFor_of_XNN h (decodeWord_class7 hc) hc rfl rfl
  · obtain ⟨wf, enc⟩ := decodeClass8_standsFor ((decodeWord_class8 hc).symm.trans h)
    exact standsFor_of_XYN h h hc wf enc
  · have hd := h
    rw [decodeWord_class9 hc] at h
    split_ifs at h with hn
    cases h
    exact standsFor_of_XYN hd hd hc rfl (by rw [encode, hn])
  · exact standsFor_of_NNN h (decodeWord_classA hc) hc rfl rfl
  · exact standsFor_of_NNN h (decodeWord_classB hc) hc rfl rfl
  · exact standsFor_of_XNN h (decodeWord_classC hc) hc rfl rfl
  · exact standsFor_of_XYN h (decodeWord_classD hc) hc rfl rfl
  · obtain ⟨wf, enc⟩ := decodeClassE_standsFor ((decodeWord_classE hc).symm.trans h)
    exact standsFor_of_XNN h h hc wf enc
  · obtain ⟨wf, enc⟩ := decodeClassF_standsFor ((decodeWord_classF hc).symm.trans h)
    exact standsFor_of_XNN h h hc wf enc

/-! ### Byte sequences -/

/-- A word split into its bytes decodes as the word, and what follows is left alone (R53, R70). -/
theorem decodeBytes_of_decodeWord {w : Word} {i : Instr} (h : decodeWord w = some i) (rest : List Byte) :
    decodeBytes (w.extractLsb' 8 8 :: w.extractLsb' 0 8 :: rest) = .ok (i, rest) := by
  rw [decodeBytes, wordOfBytes_split, h]

/-- Settles O4: the two bytes are those of the word, which decodes to the instruction (`decodeAfterEncode`). -/
theorem decodeBytesTakesTwoBytes : Obligations.DecodeBytesTakesTwoBytes := by
  intro i rest wf
  exact decodeBytes_of_decodeWord (decodeAfterEncode i wf) rest

/-! ### Unrecognised words (R76) -/

theorem decodeClass8_eq_none (x y n : Nib) :
    decodeClass8 x y n = none ↔ n.toNat ∈ [0x8, 0x9, 0xA, 0xB, 0xC, 0xD, 0xF] := by
  obtain rfl | rfl | rfl | rfl | rfl | rfl | rfl | rfl | rfl | rfl | rfl | rfl | rfl | rfl | rfl | rfl := nib_cases n
  all_goals simp [decodeClass8]

theorem ite_some_eq_none {α : Type} {p : Prop} [Decidable p] {a : α} {o : Option α} :
    (if p then some a else o) = none ↔ ¬p ∧ o = none := by
  split <;> simp [*]

theorem decodeClassE_eq_none (x : Nib) (nn : Byte) :
    decodeClassE x nn = none ↔ nn.toNat ∉ [0x9E, 0xA1] := by
  simp [decodeClassE, ite_some_eq_none, BitVec.toNat_eq]

theorem decodeClassF_eq_none (x : Nib) (nn : Byte) :
    decodeClassF x nn = none ↔ nn.toNat ∉ [0x07, 0x0A, 0x15, 0x18, 0x1E, 0x29, 0x33, 0x55, 0x65] := by
  simp [decodeClassF, ite_some_eq_none, BitVec.toNat_eq]

/-- The words of R76's table, by their fields. -/
def Unrecognised (w : Word) : Prop :=
  (fieldC w = 0x5 ∧ fieldN w ≠ 0) ∨
  (fieldC w = 0x8 ∧ (fieldN w).toNat ∈ [0x8, 0x9, 0xA, 0xB, 0xC, 0xD, 0xF]) ∨
  (fieldC w = 0x9 ∧ fieldN w ≠ 0) ∨
  (fieldC w = 0xE ∧ (fieldNN w).toNat ∉ [0x9E, 0xA1]) ∨
  (fieldC w = 0xF ∧ (fieldNN w).toNat ∉ [0x07, 0x0A, 0x15, 0x18, 0x1E, 0x29, 0x33, 0x55, 0x65])

theorem decodeWord_eq_none (w : Word) : decodeWord w = none ↔ Unrecognised w := by
  unfold Unrecognised
  obtain hc | hc | hc | hc | hc | hc | hc | hc | hc | hc | hc | hc | hc | hc | hc | hc := nib_cases (fieldC w)
  · simp [decodeWord_class0 hc, hc]
  · simp [decodeWord_class1 hc, hc]
  · simp [decodeWord_class2 hc, hc]
  · simp [decodeWord_class3 hc, hc]
  · simp [decodeWord_class4 hc, hc]
  · simp [decodeWord_class5 hc, hc]
  · simp [decodeWord_class6 hc, hc]
  · simp [decodeWord_class7 hc, hc]
  · simp [decodeWord_class8 hc, hc, decodeClass8_eq_none]
  · simp [decodeWord_class9 hc, hc]
  · simp [decodeWord_classA hc, hc]
  · simp [decodeWord_classB hc, hc]
  · simp [decodeWord_classC hc, hc]
  · simp [decodeWord_classD hc, hc]
  · simp [decodeWord_classE hc, hc, decodeClassE_eq_none]
  · simp [decodeWord_classF hc, hc, decodeClassF_eq_none]

/-- A class-0 word other than `00E0` and `00EE` is `0NNN` (R74, R77; D19). -/
theorem decodeWord_sys {w : Word} (hc : fieldC w = 0x0) (notCls : w ≠ 0x00E0) (notRet : w ≠ 0x00EE) :
    decodeWord w = some (.sys (fieldNNN w)) := by
  have word : wordNNN 0x0 (fieldNNN w) = w := by rw [← hc, word_of_C_NNN]
  have operand : sysOperandOk (fieldNNN w) = true := by
    rw [sysOperandOk, Bool.and_eq_true, bne_iff_ne, bne_iff_ne]
    exact ⟨fun h => notCls (by rw [← word, h]; rfl), fun h => notRet (by rw [← word, h]; rfl)⟩
  rw [decodeWord_class0 hc, decodeClass0_of_sysOperandOk operand]

/-- Settles O5: the table of R76 read with the fields as numbers (`decodeWord_eq_none`), and the rest of class 0. -/
theorem unrecognisedWordsExactly : Obligations.UnrecognisedWordsExactly := by
  intro w
  have class_iff (c : Nib) : fieldC w = c ↔ w.toNat / 4096 = c.toNat := by
    rw [← fieldC_toNat, BitVec.toNat_inj]
  have low_ne_zero : fieldN w ≠ 0 ↔ w.toNat % 16 ≠ 0 := by
    rw [← fieldN_toNat, ne_eq, ← BitVec.toNat_inj]; rfl
  refine ⟨?_, fun h0 notCls notRet => ?_⟩
  · rw [decodeWord_eq_none, Unrecognised, low_ne_zero, fieldN_toNat, fieldNN_toNat]
    simp only [class_iff]
    rfl
  · rw [decodeWord_sys ((class_iff 0x0).2 h0) notCls notRet, fieldNNN_eq]

/-- Settles O1: nine words, evaluated. -/
theorem sampleWordsDecode : Obligations.SampleWordsDecode := by
  unfold Obligations.SampleWordsDecode
  decide

end Sys2Proof.Machine

/-! PROOFS. The meaning of each instruction, one equation each (40 to 45); the seven that earlier parts use stand
there. -/

namespace Sys2Proof.Machine

open Sys2Proof

@[simp] theorem exec_sys (nnn : Addr) (s : State) :
    exec (.sys nnn) s = .next (s.report (.badop s.pc0 (encode (.sys nnn)))) := rfl

@[simp] theorem exec_seImm (x : Nib) (nn : Byte) (s : State) :
    exec (.seImm x nn) s = .next (s.skipIf (s.getV x == nn)) := rfl

@[simp] theorem exec_sneImm (x : Nib) (nn : Byte) (s : State) :
    exec (.sneImm x nn) s = .next (s.skipIf (s.getV x != nn)) := rfl

@[simp] theorem exec_seReg (x y : Nib) (s : State) :
    exec (.seReg x y) s = .next (s.skipIf (s.getV x == s.getV y)) := rfl

@[simp] theorem exec_sneReg (x y : Nib) (s : State) :
    exec (.sneReg x y) s = .next (s.skipIf (s.getV x != s.getV y)) := rfl

@[simp] theorem exec_ldReg (x y : Nib) (s : State) : exec (.ldReg x y) s = .next (s.setV x (s.getV y)) := rfl

@[simp] theorem exec_orReg (x y : Nib) (s : State) :
    exec (.orReg x y) s = .next (s.setV x (s.getV x ||| s.getV y)) := rfl

@[simp] theorem exec_andReg (x y : Nib) (s : State) :
    exec (.andReg x y) s = .next (s.setV x (s.getV x &&& s.getV y)) := rfl

@[simp] theorem exec_xorReg (x y : Nib) (s : State) :
    exec (.xorReg x y) s = .next (s.setV x (s.getV x ^^^ s.getV y)) := rfl

@[simp] theorem exec_addReg (x y : Nib) (s : State) : exec (.addReg x y) s =
    .next (s.setVFlag x (s.getV x + s.getV y) (carryFlag (s.getV x) (s.getV y))) := rfl

@[simp] theorem exec_sub (x y : Nib) (s : State) : exec (.sub x y) s =
    .next (s.setVFlag x (s.getV x - s.getV y) (noBorrowFlag (s.getV x) (s.getV y))) := rfl

@[simp] theorem exec_subn (x y : Nib) (s : State) : exec (.subn x y) s =
    .next (s.setVFlag x (s.getV y - s.getV x) (noBorrowFlag (s.getV y) (s.getV x))) := rfl

@[simp] theorem exec_shr (x y : Nib) (s : State) :
    exec (.shr x y) s = .next (s.setVFlag x (s.getV x >>> 1) (lowBitFlag (s.getV x))) := rfl

@[simp] theorem exec_shl (x y : Nib) (s : State) :
    exec (.shl x y) s = .next (s.setVFlag x (s.getV x <<< 1) (highBitFlag (s.getV x))) := rfl

@[simp] theorem exec_rnd (x : Nib) (nn : Byte) (s : State) : exec (.rnd x nn) s =
    .next { s.setV x (Config.randByte s.draws &&& nn) with draws := s.draws + 1 } := rfl

@[simp] theorem exec_drw (x y n : Nib) (s : State) : exec (.drw x y n) s =
    .next ((s.setV regF 0).drawSprite (s.originX x) (s.originY y) n.toNat) := rfl

@[simp] theorem exec_skp (x : Nib) (s : State) :
    exec (.skp x) s = .next (s.skipIf (s.key (s.lowNibble x))) := rfl

@[simp] theorem exec_sknp (x : Nib) (s : State) :
    exec (.sknp x) s = .next (s.skipIf (!s.key (s.lowNibble x))) := rfl

@[simp] theorem exec_ldVxDt (x : Nib) (s : State) : exec (.ldVxDt x) s = .next (s.setV x s.dt) := rfl

@[simp] theorem exec_ldDtVx (x : Nib) (s : State) : exec (.ldDtVx x) s = .next { s with dt := s.getV x } := rfl

@[simp] theorem exec_ldStVx (x : Nib) (s : State) : exec (.ldStVx x) s = .next { s with st := s.getV x } := rfl

@[simp] theorem exec_addI (x : Nib) (s : State) : exec (.addI x) s =
    .next (State.setV { s with idx := (s.idx + wideByte (s.getV x)) &&& 0xFFF#16 } regF
      (indexOverflowFlag s.idx (s.getV x))) := rfl

@[simp] theorem exec_ldF (x : Nib) (s : State) :
    exec (.ldF x) s = .next { s with idx := glyphAddr s.cfg (s.lowNibble x) } := rfl

@[simp] theorem exec_ldB (x : Nib) (s : State) :
    exec (.ldB x) s = .next (s.writeBytes s.idx (bcdDigits (s.getV x))) := rfl

@[simp] theorem exec_stRegs (x : Nib) (s : State) :
    exec (.stRegs x) s = .next (s.writeBytes s.idx (s.firstRegs (x.toNat + 1))) := rfl

@[simp] theorem exec_ldRegs (x : Nib) (s : State) : exec (.ldRegs x) s = .next (s.loadRegs (x.toNat + 1)) := rfl

/-- `00EE` with a frame in use (R91). -/
theorem exec_ret_pop {s : State} (h : 0 < s.sp.val) :
    ∃ t : State, exec .ret s = .next { t with pc := s.slot s.sp.val } ∧ t = { s with sp := t.sp } ∧
      t.sp.val + 1 = s.sp.val := by
  obtain ⟨t, hpop, frame, hsp⟩ := pop_some s h
  exact ⟨t, by rw [exec, execRet, hpop], frame, hsp⟩

/-- `00EE` with no frame in use (R203). -/
theorem exec_ret_empty {s : State} (h : s.sp.val = 0) :
    exec .ret s = .next (s.report (.stkunf s.pc0 (encode .ret))) := by
  rw [exec, execRet, pop_none s h]

/-- `2NNN` with a free slot (R93). -/
theorem exec_call_push (nnn : Addr) {s : State} (h : s.sp.val < 16) :
    ∃ t : State, exec (.call nnn) s = .next { t with pc := wideAddr nnn } ∧
      t = { s with sp := t.sp, stack := t.stack } ∧ t.sp.val = s.sp.val + 1 ∧ t.slot t.sp.val = s.pc ∧ ∀ k, k ≠ t.sp.val → t.slot k = s.slot k := by
  obtain ⟨t, hpush, frame, hsp, top, others⟩ := push_some s s.pc h
  exact ⟨t, by rw [exec, execCall, hpush], frame, hsp, top, others⟩

/-- `2NNN` with 16 frames in use (R204). -/
theorem exec_call_full (nnn : Addr) {s : State} (h : s.sp.val = 16) :
    exec (.call nnn) s = .next (s.report (.stkovf s.pc0 (encode (.call nnn)))) := by
  rw [exec, execCall, push_none s s.pc h]

end Sys2Proof.Machine

/-! PROOFS. Arithmetic, logic, shifts and the random byte (41_alu R112 to R121). -/

namespace Sys2Proof.Machine

open Sys2Proof

/-- Settles O12: each is one write of `V[X]` (`setV_spec`), whose bits are those of the operation. -/
theorem copyAndLogic : Obligations.CopyAndLogic := by
  intro s x y
  refine ⟨⟨_, exec_ldReg x y s, setV_spec s x _⟩, ⟨_, exec_orReg x y s, rfl, fun k => ?_, fun r => getV_setV_ne s _⟩,
    ⟨_, exec_andReg x y s, rfl, fun k => ?_, fun r => getV_setV_ne s _⟩,
    ⟨_, exec_xorReg x y s, rfl, fun k => ?_, fun r => getV_setV_ne s _⟩⟩
  · rw [getV_setV_self, BitVec.getLsbD_or]
  · rw [getV_setV_self, BitVec.getLsbD_and]
  · rw [getV_setV_self, BitVec.getLsbD_xor]

theorem carryFlag_toNat (a b : Byte) : (carryFlag a b).toNat = if 0xFF < a.toNat + b.toNat then 1 else 0 := by
  rw [carryFlag, flagByte_toNat]
  simp only [decide_eq_true_eq]

theorem noBorrowFlag_toNat (a b : Byte) : (noBorrowFlag a b).toNat = if b.toNat ≤ a.toNat then 1 else 0 := by
  rw [noBorrowFlag, flagByte_toNat]
  simp only [decide_eq_true_eq]

theorem indexOverflowFlag_toNat (i : Word) (b : Byte) :
    (indexOverflowFlag i b).toNat = if 0xFFF < i.toNat + b.toNat then 1 else 0 := by
  rw [indexOverflowFlag, flagByte_toNat]
  simp only [decide_eq_true_eq]

theorem lowBitFlag_toNat (a : Byte) : (lowBitFlag a).toNat = a.toNat % 2 := by
  rw [lowBitFlag, flagByte_toNat, BitVec.getLsbD, Nat.testBit_zero]
  simp only [decide_eq_true_eq]
  split <;> omega

theorem highBitFlag_toNat (a : Byte) : (highBitFlag a).toNat = a.toNat / 128 := by
  have bound := a.isLt
  rw [highBitFlag, flagByte_toNat, BitVec.getLsbD, Nat.testBit_eq_decide_div_mod_eq]
  simp only [decide_eq_true_eq]
  split <;> omega

/-- A byte difference as arithmetic modulo 256 (R9, R117). -/
theorem byte_sub_toNat (a b : Byte) : (a - b).toNat = (a.toNat + 256 - b.toNat) % 256 := by
  have bound := b.isLt
  rw [BitVec.toNat_sub]
  omega

theorem byte_shl_toNat (a : Byte) : (a <<< 1).toNat = a.toNat * 2 % 256 := by
  rw [BitVec.toNat_shiftLeft, Nat.shiftLeft_eq]

theorem byte_shr_toNat (a : Byte) : (a >>> 1).toNat = a.toNat / 2 := by
  rw [BitVec.toNat_ushiftRight, Nat.shiftRight_eq_div_pow]

/-- What a flag writer leaves, with the result and the flag as numbers (R123, D14). -/
theorem setVFlag_toNat (s : State) (x : Nib) {b f : Byte} {m n : Nat} (hb : b.toNat = m) (hf : f.toNat = n) :
    s.setVFlag x b f = { s with v := (s.setVFlag x b f).v } ∧
      (x ≠ 15#4 → ((s.setVFlag x b f).getV x).toNat = m) ∧ ((s.setVFlag x b f).getV 15#4).toNat = n ∧
      ∀ r, r ≠ x → r ≠ 15#4 → (s.setVFlag x b f).getV r = s.getV r := by
  obtain ⟨frame, result, flag, others⟩ := setVFlag_spec s x b f
  exact ⟨frame, fun hx => by rw [result hx, hb], by rw [flag, hf], others⟩

/-- Settles O13: the result and the flag are `setVFlag_toNat`; the flag is the carry of the exact sum. -/
theorem addSetsCarry : Obligations.AddSetsCarry := by
  intro s x y
  exact ⟨_, exec_addReg x y s, setVFlag_toNat s x (BitVec.toNat_add ..) (carryFlag_toNat ..)⟩

/-- Settles O14: both orders of the operands are `setVFlag_toNat` with the difference modulo 256. -/
theorem subtractSetsNoBorrow : Obligations.SubtractSetsNoBorrow := by
  intro s x y
  exact ⟨⟨_, exec_sub x y s, setVFlag_toNat s x (byte_sub_toNat ..) (noBorrowFlag_toNat ..)⟩,
    ⟨_, exec_subn x y s, setVFlag_toNat s x (byte_sub_toNat ..) (noBorrowFlag_toNat ..)⟩⟩

/-- Settles O15: neither meaning reads `V[Y]`; halving, doubling and the bit shifted out are arithmetic on `V[X]`. -/
theorem shiftsInPlace : Obligations.ShiftsInPlace := by
  intro s x y
  exact ⟨⟨_, exec_shr x y s, setVFlag_toNat s x (byte_shr_toNat _) (lowBitFlag_toNat _)⟩,
    ⟨_, exec_shl x y s, setVFlag_toNat s x (byte_shl_toNat _) (highBitFlag_toNat _)⟩⟩

/-- Settles O16: whatever the draw, the mask clears the bits outside `NN`. -/
theorem randomIsMasked : Obligations.RandomIsMasked := by
  intro s x nn
  have written : ({ s.setV x (Config.randByte s.draws &&& nn) with draws := s.draws + 1 } : State).getV x =
      Config.randByte s.draws &&& nn := getV_setV_self s x _
  refine ⟨_, exec_rnd x nn s, rfl, written, ?_, fun r hr => getV_setV_ne s _ hr⟩
  rw [written, BitVec.and_assoc, BitVec.and_not_self]
  exact BitVec.and_zero

end Sys2Proof.Machine

/-! PROOFS. Control transfer (40_control_flow R91 to R100), the key skips (44_input R160, R161) and the key-wait. -/

namespace Sys2Proof.Machine

open Sys2Proof

/-! ### Skips -/

/-- A skip whose condition is the proposition `p` (R95). -/
theorem skipIf_toNat (s : State) {c : Bool} {p : Prop} [Decidable p] (h : c = true ↔ p) :
    s.skipIf c = { s with pc := (s.skipIf c).pc } ∧
      (s.skipIf c).pc.toNat = if p then (s.pc.toNat + 2) % 4096 else s.pc.toNat := by
  obtain ⟨frame, hpc⟩ := skipIf_spec s c
  exact ⟨frame, by rw [hpc]; simp only [h]⟩

/-- A skip on the opposite of `p` (R96). -/
theorem skipIf_not_toNat (s : State) {c : Bool} {p : Prop} [Decidable p] (h : c = true ↔ ¬p) :
    s.skipIf c = { s with pc := (s.skipIf c).pc } ∧
      (s.skipIf c).pc.toNat = if p then s.pc.toNat else (s.pc.toNat + 2) % 4096 := by
  obtain ⟨frame, hpc⟩ := skipIf_toNat s h
  exact ⟨frame, by rw [hpc, ite_not]⟩

/-- Settles O23: a skip on an equality and one on its opposite. -/
theorem skipsOnImmediate : Obligations.SkipsOnImmediate := by
  intro s x nn
  exact ⟨⟨_, exec_seImm x nn s, skipIf_toNat s beq_iff_eq⟩, ⟨_, exec_sneImm x nn s, skipIf_not_toNat s bne_iff_ne⟩⟩

/-- Settles O24: the same two conditions on two registers. -/
theorem skipsOnRegisters : Obligations.SkipsOnRegisters := by
  intro s x y
  exact ⟨⟨_, exec_seReg x y s, skipIf_toNat s beq_iff_eq⟩, ⟨_, exec_sneReg x y s, skipIf_not_toNat s bne_iff_ne⟩⟩

/-- Settles O37: the key looked at is the one numbered by the low nibble. -/
theorem skipsOnKey : Obligations.SkipsOnKey := by
  intro s x k hk
  have named : s.lowNibble x = k := BitVec.eq_of_toNat_eq ((lowNibble_toNat s x).trans hk.symm)
  refine ⟨⟨_, exec_skp x s, ?_⟩, ⟨_, exec_sknp x s, ?_⟩⟩
  · rw [named]
    exact skipIf_toNat s Iff.rfl
  · rw [named]
    exact skipIf_not_toNat s (by rw [Bool.not_eq_true', Bool.not_eq_true])

/-- Settles O38: the meaning of `FX0A` writes `WAIT` alone and looks at no key. -/
theorem waitForKey : Obligations.WaitForKey := by
  intro s x
  exact ⟨_, exec_ldVxK x s, rfl, rfl⟩

/-- Settles O40: one register write, and two timer writes. -/
theorem timerRegisters : Obligations.TimerRegisters := by
  intro s x
  exact ⟨⟨_, exec_ldVxDt x s, setV_spec s x s.dt⟩, ⟨_, exec_ldDtVx x s, rfl, rfl⟩, ⟨_, exec_ldStVx x s, rfl, rfl⟩⟩

/-! ### Calls and reports -/

theorem wordNNN_toNat (c : Nib) (nnn : Addr) : (wordNNN c nnn).toNat = c.toNat * 4096 + nnn.toNat := by
  refine Eq.trans (BitVec.toNat_append c nnn) ?_
  rw [← Nat.shiftLeft_add_eq_or_of_lt nnn.isLt, Nat.shiftLeft_eq]

theorem encode_sys (nnn : Addr) : encode (.sys nnn) = nnn.setWidth 16 := by
  apply BitVec.eq_of_toNat_eq
  rw [encode, wordNNN_toNat, ← wideAddr, wideAddr_toNat]
  exact Nat.zero_add _

theorem encode_call (nnn : Addr) : encode (.call nnn) = 0x2000#16 + nnn.setWidth 16 := by
  apply BitVec.eq_of_toNat_eq
  have bound := nnn.isLt
  rw [encode, wordNNN_toNat, BitVec.toNat_add, ← wideAddr, wideAddr_toNat, Nat.mod_eq_of_lt]
  · rfl
  · exact Nat.add_lt_add_left bound 0x2000 |>.trans (by decide)

/-- Settles O8: the address is `pc0`, two before PC, and the word is the operand itself. -/
theorem sysOnlyReports : Obligations.SysOnlyReports := by
  intro s nnn
  obtain ⟨bound, before⟩ := pc0_toNat s
  exact ⟨_, s.pc0, exec_sys nnn s, rfl, bound, before, by rw [State.report_output, encode_sys]⟩

/-- Settles O20: the two outcomes of `push`. -/
theorem callPushesOrIsRejected : Obligations.CallPushesOrIsRejected := by
  refine fun s nnn => ⟨fun free => ?_, fun full => ?_⟩
  · obtain ⟨t, ht, frame, hsp, top, others⟩ := exec_call_push nnn free
    exact ⟨_, ht, congrArg (fun u : State => { u with pc := wideAddr nnn }) frame, hsp, top, others, wideAddr_toNat nnn⟩
  · obtain ⟨bound, before⟩ := pc0_toNat s
    exact ⟨_, s.pc0, exec_call_full nnn full, rfl, bound, before, by rw [State.report_output, encode_call]⟩

/-- Settles O21: the two outcomes of `pop`. -/
theorem returnPopsOrReports : Obligations.ReturnPopsOrReports := by
  refine fun s => ⟨fun used => ?_, fun empty => ?_⟩
  · obtain ⟨t, ht, frame, hsp⟩ := exec_ret_pop used
    exact ⟨_, ht, congrArg (fun u : State => { u with pc := s.slot s.sp.val }) frame, rfl, hsp⟩
  · obtain ⟨bound, before⟩ := pc0_toNat s
    exact ⟨_, s.pc0, exec_ret_empty empty, rfl, bound, before, rfl⟩

/-- Settles O22: the frame the call pushed is the one the return pops, and it holds the PC of the start. -/
theorem returnUndoesCall : Obligations.ReturnUndoesCall := by
  intro s nnn free
  obtain ⟨t, ht, frame, hsp, top, others⟩ := exec_call_push nnn free
  have used : 0 < ({ t with pc := wideAddr nnn } : State).sp.val := by
    show 0 < t.sp.val
    omega
  obtain ⟨u, hu, frame', hsp'⟩ := exec_ret_pop used
  have back : u.sp = s.sp := Fin.ext (by
    have : u.sp.val + 1 = t.sp.val := hsp'
    omega)
  have returned : ({ t with pc := wideAddr nnn } : State).slot t.sp.val = s.pc := top
  refine ⟨_, _, ht, hu, ?_, fun k hk => ?_⟩
  · rw [frame', returned, back, frame]
  · rw [frame']
    exact others k (by omega)

/-! ### The cycle -/

theorem wordAtPc_eq (s : State) : wordAtPc s = s.fetchWord := (fetchWord_eq s).symm

/-- Settles O6: the fetched word is the two bytes at PC, and the state it executes in is past them. -/
theorem stepRunsDecodedInstruction : Obligations.StepRunsDecodedInstruction := by
  intro s k e i ha hw hd
  rw [← fetchWord_eq] at hd
  rw [step_running ha hw, cycle_decoded (s := { s with activity := .cycles k e }) hd]
  rfl

/-- A cycle whose word decodes to nothing (R99): one report, and PC past the word. -/
theorem step_unrecognised {s : State} {k : Nat} {e : Rat} (ha : s.activity = .cycles (k + 1) e)
    (hw : s.wait = none) (hd : decodeWord s.fetchWord = none) :
    step s = .next ({ s.afterFetch with activity := .cycles k e }.report (.badop s.afterFetch.pc0 s.fetchWord)) := by
  rw [step_running ha hw, cycle_unrecognised (s := { s with activity := .cycles k e }) hd]
  rfl

/-- Settles O7: the report carries the address fetched from, which the invariant's bound on PC makes PC itself. -/
theorem stepPassesOverUnrecognisedWord : Obligations.StepPassesOverUnrecognisedWord := by
  intro s k e w ha hw hpc hword hd
  rw [← fetchWord_eq] at hword
  subst hword
  refine ⟨_, step_unrecognised ha hw hd, rfl, advancePc_toNat s.pc, ?_⟩
  rw [State.report_output, pc0_afterFetch s hpc]
  rfl

/-- `1NNN` with its own address as operand: the word R240 (a) parks on. -/
theorem decodeWord_selfJump {pc : Word} (h : pc.toNat ≤ 0xFFF) :
    decodeWord (0x1000#16 ||| pc) = some (.jp (pc.setWidth 12)) := by
  have word : 0x1000#16 ||| pc = encode (.jp (pc.setWidth 12)) := by
    apply BitVec.eq_of_toNat_eq
    rw [encode, wordNNN_toNat, BitVec.toNat_or, BitVec.toNat_setWidth, Nat.mod_eq_of_lt (by omega)]
    exact (Nat.shiftLeft_add_eq_or_of_lt (i := 12) (by omega) 1).symm
  rw [word]
  exact decodeAfterEncode _ rfl

/-- Settles O25: the word is a jump to PC, so PC is the only field the cycle writes, and with its own value. -/
theorem selfJumpParks : Obligations.SelfJumpParks := by
  intro s k e ha hw hpc hword
  have target : wideAddr (s.pc.setWidth 12) = s.pc := by
    apply BitVec.eq_of_toNat_eq
    rw [wideAddr_toNat, BitVec.toNat_setWidth, Nat.mod_eq_of_lt (by omega)]
  have here : s.pc.toNat % 4096 = s.pc.toNat := Nat.mod_eq_of_lt (by omega)
  rw [stepRunsDecodedInstruction s k e (.jp (s.pc.setWidth 12)) ha hw (by rw [here, hword, decodeWord_selfJump hpc]),
    exec_jp, target]

end Sys2Proof.Machine

/-! PROOFS. The index register and the memory instructions (42_index_memory R131 to R136), and the fetch after a store
(20_memory R60). -/

namespace Sys2Proof.Machine

open Sys2Proof

/-- Settles O27: I takes the sum masked to 12 bits and VF the flag of the exact sum, the only register written. -/
theorem addToIndex : Obligations.AddToIndex := by
  intro s x
  refine ⟨_, exec_addI x s, rfl, ?_, ?_, fun r hr => getV_setV_ne _ _ hr⟩
  · rw [State.setV_idx, mask_toNat, BitVec.toNat_add, wideByte_toNat]
    omega
  · rw [← regF, getV_setV_self, indexOverflowFlag_toNat]

theorem glyphAddr_toNat {cfg : Config} (h : cfg.valid) (digit : Nib) :
    (glyphAddr cfg digit).toNat = cfg.fontBase.toNat + 5 * digit.toNat := by
  have base := h.2
  have bound := digit.isLt
  rw [glyphAddr, BitVec.toNat_add, BitVec.toNat_ofNat]
  omega

/-- Settles O28: for parameters within their limits the glyph's address does not wrap. -/
theorem pointAtGlyph : Obligations.PointAtGlyph := by
  intro s x
  refine ⟨_, exec_ldF x s, rfl, fun valid => ?_⟩
  have base := valid.2
  show (glyphAddr s.cfg (s.lowNibble x)).toNat = _ ∧ (glyphAddr s.cfg (s.lowNibble x)).toNat + 4 ≤ _
  rw [glyphAddr_toNat valid, lowNibble_toNat]
  omega

/-! ### Stores -/

@[simp] theorem writeBytes_cfg (s : State) (a : Word) (bs : List Byte) : (s.writeBytes a bs).cfg = s.cfg := by
  rw [writeBytes_frame]

@[simp] theorem writeBytes_pc (s : State) (a : Word) (bs : List Byte) : (s.writeBytes a bs).pc = s.pc := by
  rw [writeBytes_frame]

@[simp] theorem writeBytes_idx (s : State) (a : Word) (bs : List Byte) : (s.writeBytes a bs).idx = s.idx := by
  rw [writeBytes_frame]

@[simp] theorem writeBytes_v (s : State) (a : Word) (bs : List Byte) : (s.writeBytes a bs).v = s.v := by
  rw [writeBytes_frame]

@[simp] theorem firstRegs_length (s : State) (n : Nat) : (s.firstRegs n).length = min n 16 := by
  simp [State.firstRegs]

theorem firstRegs_getElem (s : State) (n : Nat) (r : Nib) (h : r.toNat < (s.firstRegs n).length) :
    (s.firstRegs n)[r.toNat] = s.getV r := by
  simp [State.firstRegs, State.getV]

/-- The bytes `FX55` stores, as the registers read one by one (R134). -/
theorem firstRegs_eq_map (s : State) (n : Nat) (h : n ≤ 16) :
    s.firstRegs n = (List.range n).map (fun r => s.getV (BitVec.ofNat 4 r)) := by
  apply List.ext_getElem
  · simp [h]
  · intro k hk _
    rw [firstRegs_length] at hk
    have number : (BitVec.ofNat 4 k).toNat = k := Nat.mod_eq_of_lt (by omega)
    have read := firstRegs_getElem s n (BitVec.ofNat 4 k) (by rw [number, firstRegs_length]; exact hk)
    simp only [number] at read
    rw [read, List.getElem_map, List.getElem_range]

theorem bcdDigits_length (v : Byte) : (bcdDigits v).length = 3 := rfl

theorem bcdDigit_toNat {n : Nat} (h : n < 10) : (BitVec.ofNat 8 n).toNat = n := Nat.mod_eq_of_lt (by omega)

/-- Settles O29: a store of three bytes, each digit below 10. -/
theorem storeDecimalDigits : Obligations.StoreDecimalDigits := by
  intro s x
  have bound := (s.getV x).isLt
  have stored (k : Nat) (hk : k < 3) :=
    memRead_writeBytes s s.idx (bcdDigits (s.getV x)) (by rw [bcdDigits_length]; omega) k hk
  refine ⟨_, exec_ldB x s, writeBytes_frame .., ?_, ?_, ?_, fun a ha => ?_⟩
  · rw [writeBytes_cfg]
    exact (congrArg BitVec.toNat (stored 0 (by decide))).trans (bcdDigit_toNat (by omega))
  · rw [writeBytes_cfg]
    exact (congrArg BitVec.toNat (stored 1 (by decide))).trans (bcdDigit_toNat (by omega))
  · rw [writeBytes_cfg]
    exact (congrArg BitVec.toNat (stored 2 (by decide))).trans (bcdDigit_toNat (by omega))
  · rw [writeBytes_cfg]
    exact memRead_writeBytes_other s s.idx _ a ha

/-- What `FX55` leaves in the cells from I upwards (R134). -/
theorem memRead_stRegs (s : State) {n : Nat} {r : Nib} (h : r.toNat < n) :
    memRead s.cfg (s.writeBytes s.idx (s.firstRegs n)).mem ((s.idx.toNat + r.toNat) % 4096) = s.getV r := by
  have bound := r.isLt
  have inside : r.toNat < (s.firstRegs n).length := by rw [firstRegs_length]; omega
  rw [memRead_writeBytes s s.idx _ (by rw [firstRegs_length]; omega) _ inside, firstRegs_getElem]

/-- Settles O30: a store of the first X + 1 registers. -/
theorem storeRegisterBlock : Obligations.StoreRegisterBlock := by
  intro s x
  refine ⟨_, exec_stRegs x s, writeBytes_frame .., fun r hr => ?_, fun a ha => ?_⟩
  · rw [writeBytes_cfg]
    exact memRead_stRegs s (Nat.lt_succ_of_le hr)
  · rw [writeBytes_cfg]
    refine memRead_writeBytes_other s s.idx _ a fun k hk => ha k ?_
    rw [firstRegs_length] at hk
    omega

/-- Settles O31: the registers up to X are those `getV_loadRegs` reads from memory. -/
theorem loadRegisterBlock : Obligations.LoadRegisterBlock := by
  intro s x
  refine ⟨_, exec_ldRegs x s, rfl, fun r hr => ?_, fun r hr => ?_⟩
  · rw [getV_loadRegs, if_pos (Nat.lt_succ_of_le hr)]
  · rw [getV_loadRegs, if_neg (not_lt.2 hr)]

/-- Settles O32: each register read back stands in the cell it was stored to, so the load writes every register with its
own value. -/
theorem storeThenLoadRoundTrip : Obligations.StoreThenLoadRoundTrip := by
  intro s x
  generalize hn : x.toNat + 1 = n
  generalize ht : s.writeBytes s.idx (s.firstRegs n) = t
  have kept : t.v = s.v := by rw [← ht, writeBytes_v]
  have loaded : (t.loadRegs n).v = t.v := by
    refine v_ext fun r => ?_
    rw [getV_loadRegs]
    split
    · rename_i hr
      rw [← ht, writeBytes_cfg, writeBytes_idx, memRead_stRegs s hr, State.getV, State.getV]
      simp
    · rfl
  have same : t.loadRegs n = t := by
    rw [State.loadRegs, ← State.loadRegs_v, loaded]
  refine ⟨t, t.loadRegs n, ?_, ?_, same, by rw [loaded, kept]⟩
  · rw [exec_stRegs, hn, ht]
  · rw [exec_ldRegs, hn]

/-! ### The fetch after a store -/

/-- A run of byte writes leaves in a cell what the statement's `cellAfterStore` says (R55). -/
theorem memRead_after_store (s : State) {bytes : List Byte} (h : bytes.length ≤ 4096) (a : Nat) :
    memRead s.cfg (s.writeBytes s.idx bytes).mem (a % 4096) = cellAfterStore s s.idx.toNat bytes (a % 4096) :=
  memRead_writeBytes_eq s s.idx bytes h _ (Nat.mod_lt _ (by decide))

/-- The next fetch after a store reads the cells as the store left them (R60). -/
theorem fetchWord_after_store (s : State) {bytes : List Byte} (h : bytes.length ≤ 4096) :
    (s.writeBytes s.idx bytes).fetchWord =
      cellAfterStore s s.idx.toNat bytes (s.pc.toNat % 4096) ++
        cellAfterStore s s.idx.toNat bytes ((s.pc.toNat + 1) % 4096) := by
  rw [fetchWord_eq, writeBytes_cfg, writeBytes_pc, memRead_after_store s h, memRead_after_store s h]

/-- A cycle executes what its word decodes to (R90, R181): `stepRunsDecodedInstruction` in terms of the fetched word. -/
theorem step_decoded {s : State} {k : Nat} {e : Rat} {i : Instr} (ha : s.activity = .cycles (k + 1) e)
    (hw : s.wait = none) (hd : decodeWord s.fetchWord = some i) :
    step s = exec i { s with pc := advancePc s.pc, activity := .cycles k e } :=
  stepRunsDecodedInstruction s k e i ha hw (by rw [← fetchWord_eq, hd])

/-- Settles O33: both stores are runs of at most 16 byte writes, which leave PC alone; the cycle that follows fetches by
`fetchWord_after_store`. -/
theorem storeSeenByNextFetch : Obligations.StoreSeenByNextFetch := by
  intro s t x store bytes w k e hstore ht ha hw hword
  obtain ⟨hexec, short⟩ : exec store s = .next (s.writeBytes s.idx bytes) ∧ bytes.length ≤ 16 := by
    have bound := x.isLt
    obtain ⟨rfl, rfl⟩ | ⟨rfl, rfl⟩ := hstore
    · rw [exec_stRegs, firstRegs_eq_map s _ bound]
      exact ⟨rfl, by simpa using bound⟩
    · exact ⟨exec_ldB x s, by simp⟩
  cases hexec.symm.trans ht
  rw [← fetchWord_after_store s (by omega)] at hword
  subst hword
  refine ⟨fun i hd => ?_, fun hd => ?_⟩
  · rw [step_decoded ha hw hd, writeBytes_pc]
    rfl
  · refine ⟨_, _, step_unrecognised ha hw hd, ?_, ?_, rfl⟩
    · rw [← writeBytes_pc s s.idx bytes]
      rfl
    · obtain ⟨bound, before⟩ := pc0_toNat (s.writeBytes s.idx bytes).afterFetch
      rw [State.afterFetch_pc, advancePc_toNat, writeBytes_pc] at before
      omega

end Sys2Proof.Machine

/-! PROOFS. Drawing (43_display R151, R152). -/

namespace Sys2Proof.Machine

open Sys2Proof

/-- The sprite of a `DXYN` executed in `s`, as the cells it turns over (R151). -/
def State.sprite (s : State) (x y n : Nib) (py : Fin 32) (px : Fin 64) : Bool :=
  spriteBit s ((s.getV x).toNat % 64) ((s.getV y).toNat % 32) n.toNat py px

/-- The drawing phase of `DXYN`, from the state with VF cleared (R151). -/
theorem execDrw_drawn (s : State) (x y n : Nib) :
    ∃ t, exec (.drw x y n) s = .next t ∧ Drawn (s.setV regF 0) t (s.sprite x y n) := by
  have hx : s.originX x < 64 := Nat.mod_lt _ (by decide)
  have hy : s.originY y < 32 := Nat.mod_lt _ (by decide)
  refine ⟨_, exec_drw x y n s, (drawSprite_drawn (s.setV regF 0) _ _ n.toNat hx hy (by omega)).congr fun py px => ?_⟩
  rw [readByte_indexed]
  rfl

/-- VF after a `DXYN`: 1 if a lit pixel is turned off, else the 0 it was cleared to (R151). -/
theorem Drawn.flag_eq_one_iff {s t : State} {p : Fin 32 → Fin 64 → Bool} (h : Drawn (s.setV regF 0) t p) :
    t.getV 15#4 = 1 ↔ ∃ py px, s.pixel py px = true ∧ p py px = true := by
  refine ⟨fun on => ?_, h.flagOn⟩
  by_contra none
  have off : t.getV 15#4 = 0 := (h.flagOff none).trans (getV_setV_self s regF 0)
  rw [off] at on
  cases on

/-- Settles O35: the cells turned over are the sprite's, and VF is `flag_eq_one_iff`. -/
theorem drawXorsSprite : Obligations.DrawXorsSprite := by
  intro s x y n
  obtain ⟨t, ht, drawn⟩ := execDrw_drawn s x y n
  refine ⟨t, ht, drawn.frame, drawn.pixels, ?_, drawn.flag_eq_one_iff, fun r hr => ?_⟩
  · by_cases lit : ∃ py px, s.pixel py px = true ∧ s.sprite x y n py px = true
    · exact .inl (drawn.flagOn lit)
    · exact .inr ((drawn.flagOff lit).trans (getV_setV_self s regF 0))
  · exact (drawn.others r hr).trans (getV_setV_ne s 0 hr)

/-- Settles O36: the second draw has the same sprite, since drawing touches neither I nor memory, and each pixel is
turned over twice or not at all. -/
theorem drawTwiceRestores : Obligations.DrawTwiceRestores := by
  intro s t u x y n ht hu sameX sameY
  obtain ⟨t', ht', first⟩ := execDrw_drawn s x y n
  obtain ⟨u', hu', second⟩ := execDrw_drawn t x y n
  cases ht'.symm.trans ht
  cases hu'.symm.trans hu
  have same : t.sprite x y n = s.sprite x y n := by
    funext py px
    rw [State.sprite, sameX, sameY, State.sprite, spriteBit, spriteBit, first.frame]
    rfl
  rw [same] at second
  refine ⟨fb_ext fun py px => ?_, second.flag_eq_one_iff⟩
  rw [second.pixels, pixel_setV, first.pixels, pixel_setV, Bool.xor_assoc, Bool.xor_self, Bool.xor_false]

end Sys2Proof.Machine

/-! PROOFS. What each instruction may write, said once (10_state R21 to R36), and the statements over all instructions
that follow from it. -/

namespace Sys2Proof.Machine

open Sys2Proof

/-! ### Footprints -/

/-- Which pieces of state may be written: `stack` stands for SP and the slots, `err` for `ERR` and the records. What an
instruction never writes has no entry. -/
structure Footprint where
  v : Bool := false
  pc : Bool := false
  idx : Bool := false
  stack : Bool := false
  dt : Bool := false
  st : Bool := false
  mem : Bool := false
  fb : Bool := false
  wait : Bool := false
  err : Bool := false
  draws : Bool := false

/-- The pieces of state an instruction may write, the fetch's move of PC not among them (R90). -/
def footprint : Instr → Footprint
  | .cls => { fb := true }
  | .ret | .call _ => { pc := true, stack := true, err := true }
  | .sys _ => { err := true }
  | .jp _ | .jpV0 _ => { pc := true }
  | .seImm _ _ | .sneImm _ _ | .seReg _ _ | .sneReg _ _ | .skp _ | .sknp _ => { pc := true }
  | .ldImm _ _ | .addImm _ _ | .ldReg _ _ | .orReg _ _ | .andReg _ _ | .xorReg _ _ => { v := true }
  | .addReg _ _ | .sub _ _ | .shr _ _ | .subn _ _ | .shl _ _ => { v := true }
  | .ldVxDt _ | .ldRegs _ => { v := true }
  | .rnd _ _ => { v := true, draws := true }
  | .drw _ _ _ => { v := true, fb := true }
  | .ldI _ | .ldF _ => { idx := true }
  | .addI _ => { v := true, idx := true }
  | .ldB _ | .stRegs _ => { mem := true }
  | .ldDtVx _ => { dt := true }
  | .ldStVx _ => { st := true }
  | .ldVxK _ => { wait := true }

/-- From `s` to `t` nothing outside the footprint changes. -/
def ChangesOnly (w : Footprint) (s t : State) : Prop :=
  t = { s with
    v := bif w.v then t.v else s.v
    pc := bif w.pc then t.pc else s.pc
    idx := bif w.idx then t.idx else s.idx
    sp := bif w.stack then t.sp else s.sp
    stack := bif w.stack then t.stack else s.stack
    dt := bif w.dt then t.dt else s.dt
    st := bif w.st then t.st else s.st
    mem := bif w.mem then t.mem else s.mem
    fb := bif w.fb then t.fb else s.fb
    wait := bif w.wait then t.wait else s.wait
    err := bif w.err then t.err else s.err
    output := bif w.err then t.output else s.output
    draws := bif w.draws then t.draws else s.draws }

theorem skipIf_changesOnly (s : State) (c : Bool) : ChangesOnly { pc := true } s (s.skipIf c) :=
  (skipIf_spec s c).1

theorem writeBytes_changesOnly (s : State) (a : Word) (bs : List Byte) :
    ChangesOnly { mem := true } s (s.writeBytes a bs) :=
  writeBytes_frame s a bs

/-- The outcome is a next state that differs from `s` inside the footprint alone. -/
def Within (w : Footprint) (s : State) (o : Result) : Prop := ∃ t, o = .next t ∧ ChangesOnly w s t

theorem Within.next {w : Footprint} {s t : State} (h : ChangesOnly w s t) : Within w s (.next t) := ⟨t, rfl, h⟩

theorem exec_ret_within (s : State) : Within (footprint .ret) s (exec .ret s) := by
  rcases Nat.eq_zero_or_pos s.sp.val with empty | used
  · rw [exec_ret_empty empty]
    exact .next rfl
  · obtain ⟨t, ht, frame, -⟩ := exec_ret_pop used
    rw [ht, frame]
    exact .next rfl

theorem exec_call_within (nnn : Addr) (s : State) : Within (footprint (.call nnn)) s (exec (.call nnn) s) := by
  rcases Nat.lt_or_ge s.sp.val 16 with free | full
  · obtain ⟨t, ht, frame, -⟩ := exec_call_push nnn free
    rw [ht, frame]
    exact .next rfl
  · rw [exec_call_full nnn (by omega)]
    exact .next rfl

theorem exec_drw_within (x y n : Nib) (s : State) : Within (footprint (.drw x y n)) s (exec (.drw x y n) s) := by
  obtain ⟨t, ht, drawn⟩ := execDrw_drawn s x y n
  rw [ht]
  exact .next drawn.frame

/-- Every instruction completes and writes inside its footprint. -/
theorem exec_within (i : Instr) (s : State) : Within (footprint i) s (exec i s) := by
  cases i
  case ret => exact exec_ret_within s
  case call nnn => exact exec_call_within nnn s
  case drw x y n => exact exec_drw_within x y n s
  case seImm | sneImm | seReg | sneReg | skp | sknp => exact .next (skipIf_changesOnly s _)
  case ldB | stRegs => exact .next (writeBytes_changesOnly s s.idx _)
  all_goals exact .next rfl

theorem exec_changesOnly {i : Instr} {s t : State} (h : exec i s = .next t) : ChangesOnly (footprint i) s t := by
  obtain ⟨u, hu, only⟩ := exec_within i s
  cases hu.symm.trans h
  exact only

/-! ### Reading a footprint -/

theorem true_of_changed {α : Type} {b : Bool} {new old : α} (h : new = bif b then new else old) (ne : new ≠ old) :
    b = true := by
  cases b
  · exact absurd h ne
  · rfl

section
variable {w : Footprint} {s t : State} (h : ChangesOnly w s t)
include h

theorem ChangesOnly.v_of_ne (ne : t.v ≠ s.v) : w.v = true := true_of_changed (congrArg State.v h) ne

theorem ChangesOnly.pc_of_ne (ne : t.pc ≠ s.pc) : w.pc = true := true_of_changed (congrArg State.pc h) ne

theorem ChangesOnly.idx_of_ne (ne : t.idx ≠ s.idx) : w.idx = true := true_of_changed (congrArg State.idx h) ne

theorem ChangesOnly.stack_of_ne (ne : t.sp ≠ s.sp ∨ t.stack ≠ s.stack) : w.stack = true :=
  ne.elim (true_of_changed (congrArg State.sp h)) (true_of_changed (congrArg State.stack h))

theorem ChangesOnly.dt_of_ne (ne : t.dt ≠ s.dt) : w.dt = true := true_of_changed (congrArg State.dt h) ne

theorem ChangesOnly.st_of_ne (ne : t.st ≠ s.st) : w.st = true := true_of_changed (congrArg State.st h) ne

theorem ChangesOnly.mem_of_ne (ne : t.mem ≠ s.mem) : w.mem = true := true_of_changed (congrArg State.mem h) ne

theorem ChangesOnly.wait_of_ne (ne : t.wait ≠ s.wait) : w.wait = true := true_of_changed (congrArg State.wait h) ne

theorem ChangesOnly.err_of_ne (ne : t.err ≠ s.err) : w.err = true := true_of_changed (congrArg State.err h) ne

theorem ChangesOnly.draws_of_ne (ne : t.draws ≠ s.draws) : w.draws = true :=
  true_of_changed (congrArg State.draws h) ne

/-- What no footprint reaches (R28, R30, R31, R6). -/
theorem ChangesOnly.host : t.keys = s.keys ∧ t.rom = s.rom ∧ t.everLoaded = s.everLoaded ∧
    t.romLoaded = s.romLoaded ∧ t.acc = s.acc ∧ t.cfg = s.cfg ∧ t.inbox = s.inbox ∧ t.activity = s.activity := by
  rw [h]
  exact ⟨rfl, rfl, rfl, rfl, rfl, rfl, rfl, rfl⟩

end

/-- Settles O58: none of these fields is in any footprint. -/
theorem hostStateOutOfReach : Obligations.HostStateOutOfReach := by
  intro i s t h
  exact (exec_changesOnly h).host

/-! ### The writers of each unit -/

section
variable {i : Instr}

theorem writers_idx (h : (footprint i).idx = true) : ∃ nnn x, i = .ldI nnn ∨ i = .addI x ∨ i = .ldF x := by
  cases i
  case ldI nnn => exact ⟨nnn, 0, .inl rfl⟩
  case addI x => exact ⟨0, x, .inr (.inl rfl)⟩
  case ldF x => exact ⟨0, x, .inr (.inr rfl)⟩
  all_goals exact absurd h Bool.false_ne_true

theorem writers_stack (h : (footprint i).stack = true) : ∃ nnn, i = .ret ∨ i = .call nnn := by
  cases i
  case ret => exact ⟨0, .inl rfl⟩
  case call nnn => exact ⟨nnn, .inr rfl⟩
  all_goals exact absurd h Bool.false_ne_true

theorem writers_mem (h : (footprint i).mem = true) : ∃ x, i = .ldB x ∨ i = .stRegs x := by
  cases i
  case ldB x => exact ⟨x, .inl rfl⟩
  case stRegs x => exact ⟨x, .inr rfl⟩
  all_goals exact absurd h Bool.false_ne_true

theorem writers_dt (h : (footprint i).dt = true) : ∃ x, i = .ldDtVx x := by
  cases i
  case ldDtVx x => exact ⟨x, rfl⟩
  all_goals exact absurd h Bool.false_ne_true

theorem writers_st (h : (footprint i).st = true) : ∃ x, i = .ldStVx x := by
  cases i
  case ldStVx x => exact ⟨x, rfl⟩
  all_goals exact absurd h Bool.false_ne_true

theorem writers_wait (h : (footprint i).wait = true) : ∃ x, i = .ldVxK x := by
  cases i
  case ldVxK x => exact ⟨x, rfl⟩
  all_goals exact absurd h Bool.false_ne_true

theorem writers_draws (h : (footprint i).draws = true) : ∃ x nn, i = .rnd x nn := by
  cases i
  case rnd x nn => exact ⟨x, nn, rfl⟩
  all_goals exact absurd h Bool.false_ne_true

theorem writers_err (h : (footprint i).err = true) : i = .ret ∨ (∃ nnn, i = .sys nnn) ∨ ∃ nnn, i = .call nnn := by
  cases i
  case ret => exact .inl rfl
  case sys nnn => exact .inr (.inl ⟨nnn, rfl⟩)
  case call nnn => exact .inr (.inr ⟨nnn, rfl⟩)
  all_goals exact absurd h Bool.false_ne_true

theorem writers_pc (h : (footprint i).pc = true) :
    ∃ nnn x y nn, i = .ret ∨ i = .jp nnn ∨ i = .call nnn ∨ i = .jpV0 nnn ∨
      i = .seImm x nn ∨ i = .sneImm x nn ∨ i = .seReg x y ∨ i = .sneReg x y ∨ i = .skp x ∨ i = .sknp x := by
  cases i
  case ret => exact ⟨0, 0, 0, 0, by simp⟩
  case jp nnn | call nnn | jpV0 nnn => exact ⟨nnn, 0, 0, 0, by simp⟩
  case seImm x nn | sneImm x nn => exact ⟨0, x, 0, nn, by simp⟩
  case seReg x y | sneReg x y => exact ⟨0, x, y, 0, by simp⟩
  case skp x | sknp x => exact ⟨0, x, 0, 0, by simp⟩
  all_goals exact absurd h Bool.false_ne_true

end

/-- Settles O57: what changes is in the footprint, and the writers of each unit are read off the footprints. -/
theorem eachUnitHasItsWriters : Obligations.EachUnitHasItsWriters := by
  intro i s t h
  have only := exec_changesOnly h
  refine ⟨fun ne => writers_idx (only.idx_of_ne ne), fun ne => writers_stack (only.stack_of_ne ne),
    fun ne => writers_mem (only.mem_of_ne ne), fun ne => ?_, fun ne => writers_dt (only.dt_of_ne ne),
    fun ne => writers_st (only.st_of_ne ne), fun ne => writers_wait (only.wait_of_ne ne),
    fun ne => writers_pc (only.pc_of_ne ne)⟩
  by_contra silent
  exact ne (exec_keepsFb silent s t h)

/-! ### The writers of VF -/

/-- A write of one register that changes VF is a write of VF. -/
theorem dest_of_flag_changed {s : State} {x : Nib} {b : Byte} (h : (s.setV x b).getV 15#4 ≠ s.getV 15#4) :
    x = 15#4 := by
  by_contra other
  exact h (getV_setV_ne s b (Ne.symm other))

/-- A block load that changes VF reaches VF (R135). -/
theorem dest_of_flag_loaded {s : State} {x : Nib} (h : (s.loadRegs (x.toNat + 1)).getV 15#4 ≠ s.getV 15#4) :
    x = 15#4 := by
  rw [getV_loadRegs] at h
  split at h
  · rename_i reached
    apply BitVec.eq_of_toNat_eq
    have bound := x.isLt
    simp only [BitVec.toNat_ofNat] at reached ⊢
    omega
  · exact absurd rfl h

/-- Settles O17: an instruction whose footprint leaves V alone keeps VF; of the others, those that are no flag writers
write VF only as their destination. -/
theorem flagWritersOnly : Obligations.FlagWritersOnly := by
  intro i s t h changed
  have writes : (footprint i).v = true :=
    (exec_changesOnly h).v_of_ne fun same => changed (by rw [State.getV, same, State.getV])
  cases i
  case addReg x y | sub x y | shr x y | subn x y | shl x y => exact .inl ⟨x, y, by simp⟩
  case addI x => exact .inl ⟨x, 0, by simp⟩
  case drw x y n => exact .inl ⟨x, y, by simp⟩
  case ldImm x nn | addImm x nn | rnd x nn =>
    cases h
    obtain rfl : x = 15#4 := dest_of_flag_changed changed
    exact .inr ⟨0, nn, by simp⟩
  case ldReg x y | orReg x y | andReg x y | xorReg x y =>
    cases h
    obtain rfl : x = 15#4 := dest_of_flag_changed changed
    exact .inr ⟨y, 0, by simp⟩
  case ldVxDt x =>
    cases h
    obtain rfl : x = 15#4 := dest_of_flag_changed changed
    exact .inr ⟨0, 0, by simp⟩
  case ldRegs x =>
    cases h
    obtain rfl : x = 15#4 := dest_of_flag_loaded changed
    exact .inr ⟨0, 0, by simp⟩
  all_goals exact absurd writes Bool.false_ne_true

end Sys2Proof.Machine

/-! PROOFS. What an instruction can see (10_state R38): its effect on what programs read depends on that alone. -/

namespace Sys2Proof.Machine

open Sys2Proof

/-- The state with everything blanked that belongs to the host or is returned to it (R28 to R32). -/
def State.programView (s : State) : State :=
  { s with
    st := 0, acc := 0, err := 0, rom := [], everLoaded := false, romLoaded := false
    inbox := [], activity := .idle, output := .empty }

/-- Two states that differ only in what `programView` blanks. -/
theorem programView_eq_iff {s s' : State} : s'.programView = s.programView ↔
    s' = { s with st := s'.st, acc := s'.acc, err := s'.err, rom := s'.rom, everLoaded := s'.everLoaded,
                  romLoaded := s'.romLoaded, inbox := s'.inbox, activity := s'.activity, output := s'.output } := by
  obtain ⟨⟩ := s
  obtain ⟨⟩ := s'
  simp [State.programView]

/-- The outcome on `s` and that on its view have the same view. -/
def SeesOnlyView (i : Instr) (s : State) : Prop :=
  ∃ t u, exec i s = .next t ∧ exec i s.programView = .next u ∧ u.programView = t.programView

theorem skipIf_programView (s : State) (c : Bool) :
    (s.programView.skipIf c).programView = (s.skipIf c).programView := by
  cases c <;> rfl

theorem writeBytes_programView (s : State) (a : Word) (bs : List Byte) :
    (s.programView.writeBytes a bs).programView = (s.writeBytes a bs).programView := by
  rw [writeBytes_frame s.programView, writeBytes_frame s, writeBytes_mem_congr (s := s.programView) (t := s) rfl rfl]
  rfl

/-- The cells turned over settle the framebuffer and VF. -/
theorem Drawn.programView_eq {s t u : State} {p : Fin 32 → Fin 64 → Bool} (h : Drawn s t p)
    (g : Drawn s.programView u p) : u.programView = t.programView := by
  have screen : u.fb = t.fb := fb_ext fun y x => (g.pixels y x).trans (h.pixels y x).symm
  have registers : u.v = t.v := v_ext fun r => by
    by_cases hr : r = 15#4
    · subst hr
      by_cases lit : ∃ y x, s.pixel y x = true ∧ p y x = true
      · exact (g.flagOn lit).trans (h.flagOn lit).symm
      · exact (g.flagOff lit).trans (h.flagOff lit).symm
    · exact (g.others r hr).trans (h.others r hr).symm
  rw [g.frame, h.frame, screen, registers]
  rfl

theorem exec_ret_seesOnlyView (s : State) : SeesOnlyView .ret s := by
  rcases Nat.eq_zero_or_pos s.sp.val with empty | used
  · exact ⟨_, _, exec_ret_empty empty, exec_ret_empty (s := s.programView) empty, rfl⟩
  · obtain ⟨t, ht, frame, hsp⟩ := exec_ret_pop used
    obtain ⟨u, hu, frame', hsp'⟩ := exec_ret_pop (s := s.programView) used
    have same : u.sp = t.sp := Fin.ext (Nat.succ.inj (hsp'.trans hsp.symm))
    refine ⟨_, _, ht, hu, ?_⟩
    rw [frame, frame', same]
    rfl

/-- Push below capacity, written out (R24). -/
theorem exec_call_eq (nnn : Addr) {s : State} (h : s.sp.val < 16) :
    exec (.call nnn) s = .next { s with
      sp := ⟨s.sp.val + 1, by omega⟩, stack := s.stack.set s.sp.val s.pc h, pc := wideAddr nnn } := by
  rw [exec, execCall, State.push, dif_pos h]

theorem exec_call_seesOnlyView (nnn : Addr) (s : State) : SeesOnlyView (.call nnn) s := by
  rcases Nat.lt_or_ge s.sp.val 16 with free | full
  · exact ⟨_, _, exec_call_eq nnn free, exec_call_eq nnn (s := s.programView) free, rfl⟩
  · have full : s.sp.val = 16 := by omega
    exact ⟨_, _, exec_call_full nnn full, exec_call_full nnn (s := s.programView) full, rfl⟩

theorem exec_drw_seesOnlyView (x y n : Nib) (s : State) : SeesOnlyView (.drw x y n) s := by
  obtain ⟨t, ht, drawn⟩ := execDrw_drawn s x y n
  obtain ⟨u, hu, drawn'⟩ := execDrw_drawn s.programView x y n
  exact ⟨t, u, ht, hu, drawn.programView_eq drawn'⟩

/-- No instruction sees what the view blanks. -/
theorem exec_seesOnlyView (i : Instr) (s : State) : SeesOnlyView i s := by
  cases i
  case ret => exact exec_ret_seesOnlyView s
  case call nnn => exact exec_call_seesOnlyView nnn s
  case drw x y n => exact exec_drw_seesOnlyView x y n s
  case seImm | sneImm | seReg | sneReg | skp | sknp => exact ⟨_, _, rfl, rfl, skipIf_programView s _⟩
  case ldB | stRegs => exact ⟨_, _, rfl, rfl, writeBytes_programView s s.idx _⟩
  all_goals exact ⟨_, _, rfl, rfl, rfl⟩

/-- Settles O60: two states with one view have, after any instruction, the view of the outcome on that view. -/
theorem programCannotSeeHostState : Obligations.ProgramCannotSeeHostState := by
  intro i s s' h
  obtain ⟨t, u, ht, hu, view⟩ := exec_seesOnlyView i s
  obtain ⟨t', u', ht', hu', view'⟩ := exec_seesOnlyView i s'
  rw [programView_eq_iff.2 h, hu] at hu'
  cases hu'
  exact ⟨t, t', ht, ht', programView_eq_iff.1 (view'.symm.trans view)⟩

end Sys2Proof.Machine

/-! PROOFS. What one step can do, said once (45_timers_pacing R180, R181), and what follows for `ERR` (R32) and for the
random draws (R34). -/

namespace Sys2Proof.Machine

open Sys2Proof

/-- Everything a step from `s` can lead to, by where the core stands. -/
inductive StepsTo (s : State) : State → Prop
  /-- A cycle that executes the instruction at PC. -/
  | executes {k : Nat} {e : Rat} {i : Instr} {t : State} (busy : s.activity = .cycles (k + 1) e)
      (running : s.wait = none) (word : decodeWord s.fetchWord = some i)
      (effect : exec i { s with pc := advancePc s.pc, activity := .cycles k e } = .next t) : StepsTo s t
  /-- A cycle that passes over an unrecognised word. -/
  | passesOver {k : Nat} {e : Rat} (busy : s.activity = .cycles (k + 1) e) (running : s.wait = none)
      (word : decodeWord s.fetchWord = none) : StepsTo s
        ({ s with pc := advancePc s.pc, activity := .cycles k e }.report (.badop s.afterFetch.pc0 s.fetchWord))
  /-- A cycle attempt of a waiting core. -/
  | waits {k : Nat} {e : Rat} {r : Nib} (busy : s.activity = .cycles (k + 1) e) (waiting : s.wait = some r) :
      StepsTo s { s with activity := .cycles k e }
  /-- After the last attempt. -/
  | endsCycles {e : Rat} (busy : s.activity = .cycles 0 e) : StepsTo s (s.endCycles e)
  /-- A turn of the tick loop. -/
  | ticks (ticking : s.activity = .ticks) : StepsTo s s.tickTurn
  /-- Between host operations, with none to come. -/
  | rests (idle : s.activity = .idle) (done : s.inbox = []) : StepsTo s s
  /-- The start of a host operation. -/
  | starts {op : HostOp} {rest : List HostOp} (idle : s.activity = .idle) (next : s.inbox = op :: rest) :
      StepsTo s (hostOp op (s.takeOp rest))

theorem stepsTo_of_step {s t : State} (h : step s = .next t) : StepsTo s t := by
  cases ha : s.activity with
  | cycles left e =>
    cases left with
    | zero =>
      cases (step_endCycles ha).symm.trans h
      exact .endsCycles ha
    | succ k =>
      cases hw : s.wait with
      | some r =>
        cases (step_waiting ha hw).symm.trans h
        exact .waits ha hw
      | none =>
        cases hd : decodeWord s.fetchWord with
        | some i => exact .executes ha hw hd ((step_decoded ha hw hd).symm.trans h)
        | none =>
          cases (step_unrecognised ha hw hd).symm.trans h
          exact .passesOver ha hw hd
  | ticks =>
    cases (step_ticks ha).symm.trans h
    exact .ticks ha
  | idle =>
    cases hi : s.inbox with
    | nil =>
      cases (step_idle ha hi).symm.trans h
      exact .rests ha hi
    | cons op rest =>
      cases (step_hostOp ha hi).symm.trans h
      exact .starts ha hi

/-- A cycle attempt outside the key-wait is what the statements call a fetch. -/
theorem fetches_of_busy {s : State} {k : Nat} {e : Rat} (busy : s.activity = .cycles (k + 1) e)
    (running : s.wait = none) : fetches s := ⟨⟨k, e, busy⟩, running⟩

/-- A step that fetches an instruction executes it. -/
theorem step_of_fetches {s t : State} {i : Instr} (h : step s = .next t) (hf : fetches s)
    (hd : decodeWord (wordAtPc s) = some i) :
    ∃ k e, exec i { s with pc := advancePc s.pc, activity := .cycles k e } = .next t := by
  obtain ⟨⟨k, e, busy⟩, running⟩ := hf
  rw [wordAtPc_eq] at hd
  exact ⟨k, e, (step_decoded busy running hd).symm.trans h⟩

/-! ### What the shared operations leave unchanged -/

theorem setKeyNib_frame (s : State) (k : Nib) (p : Bool) : s.setKeyNib k p = { s with
    keys := (s.setKeyNib k p).keys, v := (s.setKeyNib k p).v, wait := (s.setKeyNib k p).wait } := by
  unfold State.setKeyNib
  split <;> rfl

/-- `SET_KEY` writes `KEY`, `V` and `WAIT` alone (R163). -/
theorem setKey_frame (s : State) (index : Int) (p : Bool) : s.setKey index p = { s with
    keys := (s.setKey index p).keys, v := (s.setKey index p).v, wait := (s.setKey index p).wait } := by
  unfold State.setKey
  split
  · rfl
  · exact setKeyNib_frame s _ p

/-- The start of `ADVANCE` writes the model's place in it alone (R180). -/
theorem beginAdvance_frame (s : State) (e : Rat) :
    s.beginAdvance e = { s with activity := (s.beginAdvance e).activity } := by
  unfold State.beginAdvance
  split <;> rfl

/-- `RELOAD` is nothing, or the `LOAD` of the snapshot (R234). -/
theorem reload_cases (s : State) : s.reload = s ∨ (s.everLoaded = true ∧ s.reload = s.load s.rom) := by
  cases h : s.everLoaded
  · exact .inl (reload_never_loaded h)
  · exact .inr ⟨rfl, reload_ever_loaded h⟩

/-- A turn of the tick loop writes the timers, ACC and the place in the `ADVANCE` (R178, R180). -/
theorem tickTurn_frame (s : State) : s.tickTurn = { s with
    dt := s.tickTurn.dt, st := s.tickTurn.st, acc := s.tickTurn.acc, activity := s.tickTurn.activity } := by
  unfold State.tickTurn
  split <;> rfl

/-! ### Parameters and draws -/

theorem hostOp_cfg_draws (op : HostOp) (s : State) : (hostOp op s).cfg = s.cfg ∧ (hostOp op s).draws = s.draws := by
  have load (bytes : List Byte) : (s.load bytes).cfg = s.cfg ∧ (s.load bytes).draws = s.draws := by
    rw [load_eq]
    exact ⟨rfl, rfl⟩
  cases op with
  | load bytes => exact load bytes
  | reload =>
    obtain kept | ⟨-, loaded⟩ := reload_cases s
    · rw [hostOp, kept]; exact ⟨rfl, rfl⟩
    · rw [hostOp, loaded]; exact load s.rom
  | advance e => rw [hostOp, beginAdvance_frame]; exact ⟨rfl, rfl⟩
  | setKey index pressed => rw [hostOp, setKey_frame]; exact ⟨rfl, rfl⟩
  | coldReset | reset | readDisplay | readStatus => exact ⟨rfl, rfl⟩

/-- No step writes the parameters, and the draws are counted up by the cycle of a `CXNN` alone. -/
theorem step_cfg_draws {s t : State} (h : StepsTo s t) :
    t.cfg = s.cfg ∧
      (t.draws = s.draws ∨ ∃ x nn, fetches s ∧ decodeWord (wordAtPc s) = some (.rnd x nn)) := by
  cases h with
  | executes busy running word effect =>
    have only := exec_changesOnly effect
    obtain ⟨-, -, -, -, -, cfg, -, -⟩ := only.host
    refine ⟨cfg, or_iff_not_imp_left.2 fun counted => ?_⟩
    obtain ⟨x, nn, rfl⟩ := writers_draws (only.draws_of_ne counted)
    exact ⟨x, nn, fetches_of_busy busy running, by rw [wordAtPc_eq, word]⟩
  | ticks => rw [tickTurn_frame]; exact ⟨rfl, .inl rfl⟩
  | @starts op rest =>
    obtain ⟨cfg, draws⟩ := hostOp_cfg_draws op (s.takeOp rest)
    exact ⟨cfg, .inl draws⟩
  | passesOver | waits | endsCycles | rests => exact ⟨rfl, .inl rfl⟩

/-- Settles O56: the writers of the count are those of `step_cfg_draws`, and the `CXNN` itself takes the draw of the
count it finds. -/
theorem parametersFixedDrawsFresh : Obligations.ParametersFixedDrawsFresh := by
  intro s t h
  obtain ⟨cfg, draws⟩ := step_cfg_draws (stepsTo_of_step h)
  refine ⟨cfg, fun x nn hf hd => ?_, fun other => draws.resolve_right ?_⟩
  · obtain ⟨k, e, effect⟩ := step_of_fetches h hf hd
    cases effect
    exact ⟨rfl, getV_setV_self _ x _⟩
  · rintro ⟨x, nn, hf, hd⟩
    exact other ⟨x, nn, hf, hd⟩

/-! ### ERR -/

/-- What an instruction does to `ERR` (R32, R201). -/
theorem exec_err {i : Instr} {s t : State} (h : exec i s = .next t) :
    t.err = s.err ∨ (t.err = s.err ||| 0b0001 ∧ ∃ nnn, i = .sys nnn) ∨
    (t.err = s.err ||| 0b0010 ∧ i = .ret ∧ s.sp = 0) ∨
    (t.err = s.err ||| 0b0100 ∧ s.sp.val = 16 ∧ ∃ nnn, i = .call nnn) := by
  refine or_iff_not_imp_left.2 fun reported => ?_
  obtain rfl | ⟨nnn, rfl⟩ | ⟨nnn, rfl⟩ := writers_err ((exec_changesOnly h).err_of_ne reported)
  · rcases Nat.eq_zero_or_pos s.sp.val with empty | used
    · cases (exec_ret_empty empty).symm.trans h
      exact .inr (.inl ⟨rfl, rfl, Fin.ext empty⟩)
    · obtain ⟨u, hu, frame, -⟩ := exec_ret_pop used
      cases hu.symm.trans h
      exact absurd (congrArg State.err frame) reported
  · cases h
    exact .inl ⟨rfl, nnn, rfl⟩
  · rcases Nat.lt_or_ge s.sp.val 16 with free | full
    · cases (exec_call_eq nnn free).symm.trans h
      exact absurd rfl reported
    · have full : s.sp.val = 16 := by omega
      cases (exec_call_full nnn full).symm.trans h
      exact .inr (.inr ⟨rfl, full, nnn, rfl⟩)

theorem load_err (s : State) (bytes : List Byte) :
    (s.load bytes).err = if 3584 < bytes.length then 0b1000 else 0 := by
  rw [load_eq, romMax]

/-- What the start of a host operation does to `ERR` (R32, R205, R232). -/
theorem hostOp_err (op : HostOp) (s : State) :
    (hostOp op s).err = s.err ∨ ((op = .coldReset ∨ op = .reset) ∧ (hostOp op s).err = 0) ∨
      ∃ bytes, (op = .load bytes ∨ (op = .reload ∧ s.everLoaded = true ∧ bytes = s.rom)) ∧
        (hostOp op s).err = if 3584 < bytes.length then 0b1000 else 0 := by
  cases op with
  | coldReset => exact .inr (.inl ⟨.inl rfl, rfl⟩)
  | reset => exact .inr (.inl ⟨.inr rfl, rfl⟩)
  | load bytes => exact .inr (.inr ⟨bytes, .inl rfl, load_err s bytes⟩)
  | reload =>
    obtain kept | ⟨ever, loaded⟩ := reload_cases s
    · exact .inl (congrArg State.err kept)
    · exact .inr (.inr ⟨s.rom, .inr ⟨rfl, ever, rfl⟩, by rw [hostOp, loaded, load_err]⟩)
  | advance e => exact .inl (by rw [hostOp, beginAdvance_frame])
  | setKey index pressed => exact .inl (by rw [hostOp, setKey_frame])
  | readDisplay | readStatus => exact .inl rfl

/-- Settles O59: `ERR` changes by an instruction as `exec_err` says, by an unrecognised word, or by a host operation
that resets (`hostOp_err`). -/
theorem errBitsAreSticky : Obligations.ErrBitsAreSticky := by
  refine ⟨fun i s t h => exec_err h, fun s t h => ?_⟩
  rw [wordAtPc_eq]
  cases stepsTo_of_step h with
  | executes busy running word effect =>
    have fetched := fetches_of_busy busy running
    obtain kept | ⟨err, nnn, rfl⟩ | ⟨err, rfl, empty⟩ | ⟨err, full, nnn, rfl⟩ := exec_err effect
    · exact .inl kept
    · exact .inr (.inl ⟨err, fetched, .inr ⟨nnn, word⟩⟩)
    · exact .inr (.inr (.inl ⟨err, fetched, word, empty⟩))
    · exact .inr (.inr (.inr (.inl ⟨err, fetched, full, nnn, word⟩)))
  | passesOver busy running word => exact .inr (.inl ⟨rfl, fetches_of_busy busy running, .inl word⟩)
  | ticks => exact .inl (by rw [tickTurn_frame])
  | @starts op rest idle next =>
    obtain kept | reset := hostOp_err op (s.takeOp rest)
    · exact .inl kept
    · exact .inr (.inr (.inr (.inr ⟨idle, op, rest, next, reset⟩)))
  | waits | endsCycles | rests => exact .inl rfl

end Sys2Proof.Machine

/-! PROOFS. The invariants of R36, kept by every step. -/

namespace Sys2Proof.Machine

open Sys2Proof

/-! ### Instructions -/

/-- The bound on the stored return addresses, read through `slot` (R24). -/
theorem stackRange_iff (s : State) :
    (∀ k : Fin 16, (s.stack[k]).toNat ≤ 0xFFF) ↔ ∀ k, (s.slot k).toNat ≤ 0xFFF := by
  constructor
  · intro h k
    cases k with
    | zero => exact Nat.zero_le _
    | succ j =>
      rw [State.slot]
      by_cases hj : j < 16
      · rw [Vector.getElem?_eq_getElem hj]
        exact h ⟨j, hj⟩
      · rw [Vector.getElem?_eq_none (by omega)]
        exact Nat.zero_le _
  · intro h k
    have := h (k.val + 1)
    rw [State.slot, Vector.getElem?_eq_getElem k.isLt] at this
    exact this

theorem advancePc_le (pc : Word) : (advancePc pc).toNat ≤ 0xFFF := by
  rw [advancePc_toNat]
  omega

theorem wideAddr_le (nnn : Addr) : (wideAddr nnn).toNat ≤ 0xFFF := by
  rw [wideAddr_toNat]
  exact Nat.le_of_lt_succ nnn.isLt

theorem skipIf_pc_le {s : State} (h : s.pc.toNat ≤ 0xFFF) (c : Bool) : (s.skipIf c).pc.toNat ≤ 0xFFF := by
  cases c
  · exact h
  · exact advancePc_le s.pc

section
variable {i : Instr} {s t : State} (inv : s.Inv) (h : exec i s = .next t)
include inv h

theorem exec_pcRange : t.pc.toNat ≤ 0xFFF := by
  by_cases same : t.pc = s.pc
  · rw [same]
    exact inv.pcRange
  obtain ⟨nnn, x, y, nn, hi⟩ := writers_pc ((exec_changesOnly h).pc_of_ne same)
  obtain rfl | rfl | rfl | rfl | rfl | rfl | rfl | rfl | rfl | rfl := hi
  · rcases Nat.eq_zero_or_pos s.sp.val with empty | used
    · cases (exec_ret_empty empty).symm.trans h
      exact inv.pcRange
    · obtain ⟨u, hu, -, -⟩ := exec_ret_pop used
      cases hu.symm.trans h
      exact (stackRange_iff s).1 inv.stackRange _
  · cases h
    exact wideAddr_le nnn
  · rcases Nat.lt_or_ge s.sp.val 16 with free | full
    · cases (exec_call_eq nnn free).symm.trans h
      exact wideAddr_le nnn
    · cases (exec_call_full nnn (by omega)).symm.trans h
      exact inv.pcRange
  · cases h
    show (s.offsetTarget nnn).toNat ≤ 0xFFF
    rw [offsetTarget_toNat]
    omega
  all_goals
    cases h
    exact skipIf_pc_le inv.pcRange _

theorem exec_idxRange : t.idx.toNat ≤ 0xFFF := by
  by_cases same : t.idx = s.idx
  · rw [same]
    exact inv.idxRange
  obtain ⟨nnn, x, rfl | rfl | rfl⟩ := writers_idx ((exec_changesOnly h).idx_of_ne same)
  · cases h
    exact wideAddr_le nnn
  · cases h
    rw [State.setV_idx, mask_toNat]
    omega
  · cases h
    have base := inv.cfgValid.2
    have digit := (s.lowNibble x).isLt
    show (glyphAddr s.cfg (s.lowNibble x)).toNat ≤ 0xFFF
    rw [glyphAddr_toNat inv.cfgValid]
    omega

theorem exec_stackRange : ∀ k : Fin 16, (t.stack[k]).toNat ≤ 0xFFF := by
  by_cases same : t.stack = s.stack
  · rw [same]
    exact inv.stackRange
  have old := (stackRange_iff s).1 inv.stackRange
  obtain ⟨nnn, rfl | rfl⟩ := writers_stack ((exec_changesOnly h).stack_of_ne (.inr same))
  · rcases Nat.eq_zero_or_pos s.sp.val with empty | used
    · cases (exec_ret_empty empty).symm.trans h
      exact inv.stackRange
    · obtain ⟨u, hu, frame, -⟩ := exec_ret_pop used
      cases hu.symm.trans h
      exact absurd (congrArg State.stack frame) same
  · rcases Nat.lt_or_ge s.sp.val 16 with free | full
    · obtain ⟨u, hu, frame, -, top, others⟩ := exec_call_push nnn free
      cases hu.symm.trans h
      refine (stackRange_iff u).2 fun k => ?_
      by_cases hk : k = u.sp.val
      · rw [hk, top]
        exact inv.pcRange
      · rw [others k hk]
        exact old k
    · cases (exec_call_full nnn (by omega)).symm.trans h
      exact inv.stackRange

theorem exec_memWf : t.mem.wf s.cfg := by
  by_cases same : t.mem = s.mem
  · rw [same]
    exact inv.memWf
  obtain ⟨x, rfl | rfl⟩ := writers_mem ((exec_changesOnly h).mem_of_ne same)
  all_goals
    cases h
    exact writeBytes_wf s s.idx _ inv.memWf

/-- An instruction executed on a loaded core keeps the invariants: the four facts above, and fields it does not
reach. -/
theorem exec_keepsInv (loaded : s.romLoaded = true) : t.Inv := by
  obtain ⟨-, rom, ever, stillLoaded, acc, cfg, -, activity⟩ := (exec_changesOnly h).host
  have loaded' : t.romLoaded = true := stillLoaded.trans loaded
  exact {
    pcRange := exec_pcRange inv h
    idxRange := exec_idxRange inv h
    stackRange := exec_stackRange inv h
    accNonneg := by rw [acc]; exact inv.accNonneg
    accSmall := by rw [acc, activity]; exact inv.accSmall
    romLength := by rw [rom]; exact inv.romLength
    loadedEver := by rw [stillLoaded, ever]; exact inv.loadedEver
    waitLoaded := fun _ => loaded'
    activeLoaded := fun _ => loaded'
    elapsedNonneg := by rw [activity]; exact inv.elapsedNonneg
    unloadedBlank := fun unloaded => absurd loaded' (by simp [unloaded])
    memWf := by rw [cfg]; exact exec_memWf inv h
    cfgValid := by rw [cfg]; exact inv.cfgValid }

end

/-! ### The other steps -/

/-- A report touches no field of the invariants. -/
theorem State.Inv.report {s : State} (inv : s.Inv) (r : Report) : (s.report r).Inv :=
  { inv with pcRange := inv.pcRange }

theorem State.Inv.takeOp {s : State} (inv : s.Inv) (rest : List HostOp) : (s.takeOp rest).Inv :=
  { inv with pcRange := inv.pcRange }

/-- One attempt fewer to come, with PC anywhere in its range. -/
theorem State.Inv.attempt {s : State} (inv : s.Inv) {k : Nat} {e : Rat} (busy : s.activity = .cycles (k + 1) e)
    {pc : Word} (hpc : pc.toNat ≤ 0xFFF) : State.Inv { s with pc := pc, activity := .cycles k e } :=
  { inv with
    pcRange := hpc
    accSmall := fun _ => inv.accSmall (by simp [busy])
    activeLoaded := fun _ => inv.activeLoaded (by simp [busy])
    elapsedNonneg := by rintro _ _ ⟨⟩; exact inv.elapsedNonneg _ _ busy }

theorem State.Inv.endCycles {s : State} (inv : s.Inv) {e : Rat} (busy : s.activity = .cycles 0 e) :
    (s.endCycles e).Inv :=
  { inv with
    accNonneg := add_nonneg inv.accNonneg (inv.elapsedNonneg _ _ busy)
    accSmall := fun out => absurd rfl out
    activeLoaded := fun _ => inv.activeLoaded (by simp [busy])
    elapsedNonneg := by rintro _ _ ⟨⟩ }

theorem State.Inv.tickTurn {s : State} (inv : s.Inv) (ticking : s.activity = .ticks) : s.tickTurn.Inv := by
  have ticking' {n : Nat} {e : Rat} : s.activity ≠ .cycles n e := by simp [ticking]
  rcases le_or_gt tickMs s.acc with more | done
  · rw [tickTurn_tick more]
    exact { inv with
      accNonneg := sub_nonneg.2 more
      accSmall := fun out => absurd ticking out }
  · rw [tickTurn_done done]
    exact { inv with
      accSmall := fun _ => done
      activeLoaded := fun out => absurd rfl out
      elapsedNonneg := by rintro _ _ ⟨⟩ }

/-! ### Host operations -/

/-- The state a reset leaves between host operations meets the invariants, whatever snapshot that fits it keeps (R230 to
R232). -/
theorem reset_inv {s : State} (valid : s.cfg.valid) (idle : s.activity = .idle) {rom : List Byte} {ever : Bool}
    (fits : rom.length ≤ romMax) :
    State.Inv { s.reinit with rom := rom, everLoaded := ever, romLoaded := false } where
  pcRange := by simp
  idxRange := by simp
  stackRange := by simp
  accNonneg := le_rfl
  accSmall := fun _ => by norm_num [State.reinit, tickMs]
  romLength := fits
  loadedEver := by simp
  waitLoaded := by simp
  activeLoaded := fun out => absurd idle out
  elapsedNonneg := fun n e busy => by simp [idle] at busy
  unloadedBlank := fun _ => rfl
  memWf := nil_wf s.cfg
  cfgValid := valid

theorem load_inv {s : State} (valid : s.cfg.valid) (idle : s.activity = .idle) (bytes : List Byte) :
    (s.load bytes).Inv := by
  have fits : (bytes.take romMax).length ≤ romMax := List.length_take_le _ _
  rw [load_eq]
  exact { reset_inv valid idle fits (ever := true) with
    loadedEver := fun _ => rfl
    waitLoaded := fun _ => rfl
    activeLoaded := fun _ => rfl
    unloadedBlank := fun unloaded => by simp at unloaded
    memWf := writeBytes_wf s.reinit 0x200 _ (nil_wf s.cfg) }

/-- What is neither a release nor a press with no wait pending is a press that resolves a wait (R163). -/
theorem press_of_not_other {s : State} {p : Bool} (h : ¬(s.wait = none ∨ p = false)) :
    p = true ∧ ∃ r, s.wait = some r := by
  obtain ⟨pending, pressed⟩ := not_or.1 h
  exact ⟨by simpa using pressed, Option.ne_none_iff_exists'.1 pending⟩

/-- A key-wait ends or stays, and nothing else of the invariants is touched (R163). -/
theorem State.Inv.setKeyNib {s : State} (inv : s.Inv) (k : Nib) (p : Bool) : (s.setKeyNib k p).Inv := by
  by_cases other : s.wait = none ∨ p = false
  · rw [setKeyNib_other other]
    exact { inv with pcRange := inv.pcRange }
  · obtain ⟨rfl, r, waiting⟩ := press_of_not_other other
    rw [setKeyNib_resolves waiting]
    exact { inv with waitLoaded := by simp }

theorem State.Inv.setKey {s : State} (inv : s.Inv) (index : Int) (p : Bool) : (s.setKey index p).Inv := by
  unfold State.setKey
  split
  · exact inv
  · exact inv.setKeyNib _ p

/-- `ADVANCE` starts on a loaded core alone, with a clamped elapsed time (R180). -/
theorem State.Inv.beginAdvance {s : State} (inv : s.Inv) (idle : s.activity = .idle) (e : Rat) :
    (s.beginAdvance e).Inv := by
  cases loaded : s.romLoaded
  · rw [beginAdvance_unloaded loaded]
    exact inv
  · rw [beginAdvance_loaded loaded]
    exact { inv with
      accSmall := fun _ => inv.accSmall (by simp [idle])
      activeLoaded := fun _ => loaded
      elapsedNonneg := by rintro _ _ ⟨⟩; exact clampElapsed_nonneg e }

theorem State.Inv.hostOp {s : State} (inv : s.Inv) (idle : s.activity = .idle) (op : HostOp) : (hostOp op s).Inv := by
  cases op with
  | coldReset => exact reset_inv inv.cfgValid idle (Nat.zero_le _)
  | reset => exact reset_inv inv.cfgValid idle inv.romLength
  | load bytes => exact load_inv inv.cfgValid idle bytes
  | reload =>
    obtain kept | ⟨-, loaded⟩ := reload_cases s
    · rw [Machine.hostOp, kept]; exact inv
    · rw [Machine.hostOp, loaded]; exact load_inv inv.cfgValid idle s.rom
  | advance e => exact inv.beginAdvance idle e
  | setKey index pressed => exact inv.setKey index pressed
  | readDisplay | readStatus => exact { inv with pcRange := inv.pcRange }

/-- Settles O54: one lemma for each thing a step can do. -/
theorem stepKeepsInvariant : Obligations.StepKeepsInvariant := by
  intro s t inv h
  cases stepsTo_of_step h with
  | executes busy running word effect =>
    exact exec_keepsInv (inv.attempt busy (advancePc_le s.pc)) effect (inv.activeLoaded (by simp [busy]))
  | passesOver busy running word => exact (inv.attempt busy (advancePc_le s.pc)).report _
  | waits busy waiting => exact inv.attempt busy inv.pcRange
  | endsCycles busy => exact inv.endCycles busy
  | ticks ticking => exact inv.tickTurn ticking
  | rests => exact inv
  | starts idle next => exact (inv.takeOp _).hostOp idle _

/-- Settles O55: the cold state of the default parameters is a reset state without a snapshot. -/
theorem resetMeetsInvariant : Obligations.ResetMeetsInvariant :=
  reset_inv (s := State.reset) (by decide) rfl (Nat.zero_le _)

end Sys2Proof.Machine

/-! PROOFS. Reset, loading and the read-outs (70_reset_and_hazards R230 to R241), and `SET_KEY` (44_input R163). -/

namespace Sys2Proof.Machine

open Sys2Proof

/-! ### The reset image -/

theorem resetByte_font (cfg : Config) {j : Nat} (h : j < 80) :
    resetByte cfg (cfg.fontBase.toNat + j) = cfg.font[j] := by
  rw [resetByte, if_pos (Nat.le_add_right _ _), Nat.add_sub_cancel_left, Vector.getElem?_eq_getElem h,
    Option.getD_some]

theorem resetByte_zero (cfg : Config) {a : Nat} (h : a < cfg.fontBase.toNat ∨ cfg.fontBase.toNat + 80 ≤ a) :
    resetByte cfg a = 0 := by
  rw [resetByte]
  split
  · rw [Vector.getElem?_eq_none (by omega), Option.getD_none]
  · rfl

/-- The table the statement writes out is the default font, byte by byte (R33). -/
theorem fontTable_eq : fontTable = Config.defaultFont.toList := by decide

theorem fontTable_getElem? {j : Nat} (h : j < 80) : fontTable[j]? = some Config.defaultFont[j] := by
  rw [fontTable_eq, Vector.getElem?_toList, Vector.getElem?_eq_getElem h]

theorem slot_of_blank {s : State} (h : s.stack = Vector.replicate 16 0) (k : Nat) : s.slot k = 0 := by
  cases k with
  | zero => rfl
  | succ j =>
    rw [State.slot, h, Vector.getElem?_replicate]
    split <;> rfl

theorem getV_of_blank {s : State} (h : s.v = Vector.replicate 16 0) (r : Nib) : s.getV r = 0 := by
  simp [State.getV, h]

theorem key_of_blank {s : State} (h : s.keys = Vector.replicate 16 false) (k : Nib) : s.key k = false := by
  simp [State.key, h]

/-- Settles O47: the fields are those of `State.cold`; memory lists nothing, so it reads as the reset image, the font
where it stands and zeros elsewhere. -/
theorem coldResetValues : Obligations.ColdResetValues := by
  refine ⟨rfl, getV_of_blank rfl, rfl, rfl, slot_of_blank rfl, rfl, rfl, pixel_of_blank rfl, key_of_blank rfl, rfl, rfl,
    rfl, rfl, rfl, rfl, rfl, fun j hj => ?_, fun a ha => ?_, fun c valid => ⟨fun j hj => ?_, fun a ha => ?_⟩⟩
  · have font := resetByte_font Config.default hj
    rw [show Config.default.fontBase.toNat + j = j from Nat.zero_add j] at font
    rw [fontTable_getElem? hj]
    exact congrArg some font.symm
  · exact resetByte_zero Config.default (.inr ha)
  · exact resetByte_font c hj
  · exact resetByte_zero c ha

/-- Settles O48: `Reinit` gives the cold state but for the fields no reset touches. -/
theorem resetOperations : Obligations.ResetOperations := by
  intro s rest idle
  rw [step_inbox idle, step_inbox idle, hostOp, hostOp, State.coldReset, State.warmReset, State.reinit, State.cold,
    idle]
  exact ⟨rfl, rfl⟩

/-! ### Loading -/

/-- The memory `LOAD` leaves (R233). -/
def romImage (cfg : Config) (bytes : List Byte) : Memory :=
  ((State.cold cfg).writeBytes 0x200 (bytes.take romMax)).mem

/-- A byte of the ROM stands at its own offset from 0x200, since the ROM ends with the last cell (R6, R233). -/
theorem memRead_romImage_rom (cfg : Config) {bytes : List Byte} {j : Nat} (fits : j < 3584) (h : j < bytes.length) :
    memRead cfg (romImage cfg bytes) (0x200 + j) = bytes[j] := by
  have short : (bytes.take romMax).length ≤ 3584 := List.length_take_le _ _
  have inside : j < (bytes.take romMax).length := by
    rw [List.length_take]
    exact lt_min fits h
  have stored := memRead_writeBytes (State.cold cfg) 0x200 (bytes.take romMax) (by omega) j inside
  rw [List.getElem_take, show ((0x200 : Word).toNat + j) % 4096 = 0x200 + j from Nat.mod_eq_of_lt (by
    show 0x200 + j < 4096
    omega)] at stored
  exact stored

/-- Outside the ROM the reset image is left as it was. -/
theorem memRead_romImage_other (cfg : Config) {bytes : List Byte} {a : Nat}
    (outside : a < 0x200 ∨ 0x200 + bytes.length ≤ a) :
    memRead cfg (romImage cfg bytes) a = resetByte cfg a := by
  refine memRead_writeBytes_other (State.cold cfg) 0x200 (bytes.take romMax) a fun k hk => ?_
  rw [List.length_take] at hk
  have fits : k < 3584 := lt_of_lt_of_le hk (min_le_left _ _)
  have within : k < bytes.length := lt_of_lt_of_le hk (min_le_right _ _)
  show a ≠ (0x200 + k) % 4096
  omega

/-- `LOAD` from a state between host operations, as the cold state and what differs from it (R233, R205). -/
theorem load_eq_cold {s : State} (idle : s.activity = .idle) (bytes : List Byte) (rest : List HostOp) :
    (s.takeOp rest).load bytes = { State.cold s.cfg with
      mem := romImage s.cfg bytes
      rom := bytes.take 3584
      everLoaded := true
      romLoaded := true
      err := if 3584 < bytes.length then 0b1000 else 0
      draws := s.draws
      inbox := rest
      output := { reports := if 3584 < bytes.length then [.romtrunc bytes.length] else []
                  display := none, status := none } } := by
  have image : ((s.takeOp rest).reinit.writeBytes 0x200 (bytes.take romMax)).mem = romImage s.cfg bytes :=
    writeBytes_mem_congr (s := (s.takeOp rest).reinit) (t := State.cold s.cfg) rfl rfl _ _
  rw [load_eq, image, romMax, State.reinit, State.takeOp, idle]
  by_cases long : 3584 < bytes.length
  · simp only [if_pos long]
    rfl
  · simp only [if_neg long]
    rfl

/-- Settles O49: `load_eq_cold` is the frame; the font lies below 0x200, so no byte of the ROM falls on it. -/
theorem loadPlacesRom : Obligations.LoadPlacesRom := by
  intro s bytes rest idle valid next
  have below := valid.2
  refine ⟨_, (step_hostOp idle next).trans (congrArg _ (load_eq_cold idle bytes rest)), rfl,
    fun j fits h => memRead_romImage_rom s.cfg fits h, fun j h => ?_, fun a noFont outside => ?_⟩
  · exact (memRead_romImage_other s.cfg (.inl (by omega))).trans (resetByte_font s.cfg h)
  · exact (memRead_romImage_other s.cfg outside).trans (resetByte_zero s.cfg noFont)

/-! ### READ_STATUS and SET_KEY -/

theorem readStatus_mem (s : State) : s.readStatus.mem = s.memImage := by
  rw [State.readStatus]

theorem memImage_length (s : State) : s.memImage.length = 4096 := by
  rw [State.memImage, List.length_map, List.length_range]

theorem memImage_getElem? (s : State) {a : Nat} (h : a < 4096) : s.memImage[a]? = some (memRead s.cfg s.mem a) := by
  rw [State.memImage, List.getElem?_map, List.getElem?_range h, Option.map_some]

/-- Settles O52: the status is a copy of the fields, memory as the 4096 cells in order. -/
theorem readStatusShowsTheState : Obligations.ReadStatusShowsTheState := by
  intro s rest idle
  refine ⟨_, (s.takeOp rest).readStatus, step_inbox idle, rfl, rfl, rfl, rfl, rfl, rfl, rfl, rfl, rfl, rfl, rfl, rfl,
    ?_, fun a ha => ?_⟩
  · rw [readStatus_mem, memImage_length]
  · rw [readStatus_mem, memImage_getElem? _ ha]
    rfl

/-- Settles O39: a press with a wait pending is `setKeyNib_resolves`, anything else `setKeyNib_other`. -/
theorem setKeyTransitions : Obligations.SetKeyTransitions := by
  intro s k pressed rest idle next
  have started : step s = .next ((s.takeOp rest).setKeyNib k pressed) := by
    rw [step_hostOp idle next, hostOp, setKey_eq]
  have keys {t : State} (h : t.keys = s.keys.set k.toNat pressed k.isLt) :
      t.key k = pressed ∧ ∀ j, j ≠ k → t.key j = s.key j :=
    ⟨by rw [key_set s t k pressed h, if_pos rfl], fun j hj => by rw [key_set s t k pressed h, if_neg hj]⟩
  refine ⟨_, started, ?_⟩
  by_cases other : s.wait = none ∨ pressed = false
  · rw [setKeyNib_other (s := s.takeOp rest) other]
    obtain ⟨self, others⟩ := keys (t := { s.takeOp rest with keys := s.keys.set k.toNat pressed k.isLt }) rfl
    refine ⟨rfl, self, others, fun r waiting press => ?_, fun _ => ⟨rfl, rfl⟩⟩
    rw [waiting, press] at other
    simp at other
  · obtain ⟨rfl, r, waiting⟩ := press_of_not_other other
    rw [setKeyNib_resolves (s := s.takeOp rest) waiting]
    obtain ⟨self, others⟩ := keys
      (t := { s.takeOp rest with
        keys := s.keys.set k.toNat true k.isLt, v := s.v.set r.toNat (k.setWidth 8) r.isLt, wait := none }) rfl
    refine ⟨rfl, self, others, fun r' waiting' _ => ?_, fun h => absurd h other⟩
    obtain rfl : r = r' := Option.some.inj (waiting.symm.trans waiting')
    refine ⟨?_, fun q hq => getV_setV_ne s _ hq, rfl⟩
    have written : (s.setV r (k.setWidth 8)).getV r = k.setWidth 8 := getV_setV_self s r _
    refine (congrArg BitVec.toNat written).trans ?_
    rw [BitVec.toNat_setWidth, Nat.mod_eq_of_lt (by omega)]

end Sys2Proof.Machine

/-! PROOFS. Timers and pacing (45_timers_pacing R178 to R182): the tick loop as a number of ticks, and `ADVANCE` step by
step. -/

namespace Sys2Proof.Machine

open Sys2Proof

/-! ### The start of an `ADVANCE`, and one turn of its tick loop -/

/-- Settles O41: the two branches of the turn. -/
theorem tickTurn : Obligations.TickTurn := by
  intro s ticking
  refine ⟨fun more => ?_, fun done => ?_⟩
  · exact ⟨_, (step_ticks ticking).trans (congrArg _ (tickTurn_tick more)), rfl, countDown_toNat s.dt,
      countDown_toNat s.st, rfl⟩
  · rw [step_ticks ticking, tickTurn_done done]

/-- The number of attempts, with the library's floor (R180). -/
theorem attemptCount_eq (cfg : Config) (e : Rat) : attemptCount cfg e = max 1 ⌊e * (cfg.clockHz : Rat) / 1000⌋₊ := rfl

/-- Settles O42: the count of attempts is the larger of 1 and the floor. -/
theorem advanceStarts : Obligations.AdvanceStarts := by
  intro s e rest nonneg idle next
  have quotient : 0 ≤ e * (s.cfg.clockHz : Rat) / 1000 := by positivity
  refine ⟨fun loaded => ?_, fun unloaded => ?_⟩
  · refine ⟨_, attemptCount s.cfg e, step_advance_loaded idle next loaded, ?_, attemptCount_pos s.cfg e, ?_, ?_⟩
    · rw [clampElapsed_of_nonneg nonneg]
    · rw [attemptCount_eq, Nat.cast_max, Nat.cast_one]
      exact max_le_max le_rfl (Nat.floor_le quotient)
    · rw [attemptCount_eq]
      exact Nat.lt_of_floor_lt (by omega) |>.trans_eq (Nat.cast_succ _)
  · rw [step_hostOp idle next, hostOp, beginAdvance_unloaded (s := s.takeOp rest) unloaded]
    rfl

/-! ### The tick phase -/

/-- The number of ticks an accumulator is worth (R180). -/
def tickCount (acc : Rat) : Nat := ⌊acc / tickMs⌋₊

theorem tickMs_pos : 0 < tickMs := by norm_num [tickMs]

theorem tickCount_of_lt {acc : Rat} (h : acc < tickMs) : tickCount acc = 0 :=
  Nat.floor_eq_zero.2 ((div_lt_one tickMs_pos).2 h)

/-- Each tick takes one interval off the accumulator (R180). -/
theorem tickCount_of_le {acc : Rat} (h : tickMs ≤ acc) : tickCount acc = tickCount (acc - tickMs) + 1 := by
  have whole : 1 ≤ acc / tickMs := (one_le_div tickMs_pos).2 h
  have rest : (acc - tickMs) / tickMs = acc / tickMs - 1 := by rw [sub_div, div_self tickMs_pos.ne']
  rw [tickCount, tickCount, rest, Nat.floor_sub_one, Nat.sub_add_cancel (Nat.le_floor (by simpa using whole))]

/-- What is left after the ticks is less than an interval (R31, R180). -/
theorem tickCount_bounds {acc : Rat} (h : 0 ≤ acc) :
    0 ≤ acc - tickCount acc * tickMs ∧ acc - tickCount acc * tickMs < tickMs := by
  have floor := Nat.floor_le (div_nonneg h tickMs_pos.le)
  have ceil := Nat.lt_floor_add_one (acc / tickMs)
  rw [le_div_iff₀ tickMs_pos] at floor
  rw [div_lt_iff₀ tickMs_pos] at ceil
  rw [tickCount]
  constructor <;> linarith

/-- Elapsed time split in two is worth the same ticks: those of the first part, then those of its rest with the second
(R182). -/
theorem tickCount_add (a : Rat) {b : Rat} (hb : 0 ≤ b) :
    tickCount (a + b) = tickCount a + tickCount (a - tickCount a * tickMs + b) := by
  have rest : (a - tickCount a * tickMs + b) / tickMs = (a + b) / tickMs - tickCount a := by
    rw [sub_add_eq_add_sub, sub_div, mul_div_cancel_right₀ _ tickMs_pos.ne']
  have fewer : tickCount a ≤ ⌊(a + b) / tickMs⌋₊ :=
    Nat.floor_le_floor ((div_le_div_iff_of_pos_right tickMs_pos).2 (le_add_of_nonneg_right hb))
  calc tickCount (a + b)
      = tickCount a + (⌊(a + b) / tickMs⌋₊ - tickCount a) := (Nat.add_sub_cancel' fewer).symm
    _ = tickCount a + ⌊(a + b) / tickMs - tickCount a⌋₊ := by rw [Nat.floor_sub_natCast]
    _ = tickCount a + tickCount (a - tickCount a * tickMs + b) := by rw [← rest, tickCount, tickCount]

/-- `k` ticks of the loop (R178, R180): each timer `k` lower, floored at 0, and `k` intervals off ACC. -/
def State.ticked (s : State) (k : Nat) : State :=
  { s with
    dt := BitVec.ofNat 8 (s.dt.toNat - k)
    st := BitVec.ofNat 8 (s.st.toNat - k)
    acc := s.acc - k * tickMs }

/-- A byte lowered by some number, as a number (R178). -/
theorem lowered_toNat (b : Byte) (k : Nat) : (BitVec.ofNat 8 (b.toNat - k)).toNat = b.toNat - k :=
  Nat.mod_eq_of_lt (by have := b.isLt; omega)

theorem countDown_eq (b : Byte) : countDown b = BitVec.ofNat 8 (b.toNat - 1) :=
  BitVec.eq_of_toNat_eq (by rw [countDown_toNat, lowered_toNat])

theorem ticked_zero (s : State) : s.ticked 0 = s := by
  simp [State.ticked]

theorem ticked_ticked (s : State) (j k : Nat) : (s.ticked j).ticked k = s.ticked (j + k) := by
  simp only [State.ticked, lowered_toNat, Nat.sub_sub, Nat.cast_add, add_mul, sub_sub]

theorem tickTurn_eq_ticked {s : State} (h : tickMs ≤ s.acc) : s.tickTurn = s.ticked 1 := by
  rw [tickTurn_tick h, State.ticked, countDown_eq, countDown_eq, Nat.cast_one, one_mul]

/-- The tick phase in closed form is that many ticks (R180). -/
theorem tickPhase_eq (s : State) : s.tickPhase = s.ticked (tickCount s.acc) := by
  obtain ⟨frame, dt, st⟩ := timerTicks_spec (s.acc / tickMs).floor.toNat s
  have dt' := BitVec.eq_of_toNat_eq (dt.trans (lowered_toNat s.dt _).symm)
  have st' := BitVec.eq_of_toNat_eq (st.trans (lowered_toNat s.st _).symm)
  rw [State.tickPhase, frame, dt', st']
  rfl

/-- The tick loop, run turn by turn, makes that many ticks and ends the `ADVANCE` (R180). -/
theorem run_ticks {s : State} (ticking : s.activity = .ticks) {n : Nat} (h : tickCount s.acc = n) :
    Host.Core.run Sys2Proof.core (n + 1) s = .next ((s.ticked n).at .idle) := by
  induction n generalizing s with
  | zero =>
    have done : s.acc < tickMs := by
      by_contra more
      rw [tickCount_of_le (not_lt.1 more)] at h
      omega
    rw [run_next (step_ticks ticking), tickTurn_done done, ticked_zero]
    rfl
  | succ n ih =>
    have more : tickMs ≤ s.acc := by
      by_contra done
      rw [tickCount_of_lt (not_le.1 done)] at h
      omega
    rw [tickCount_of_le more] at h
    rw [run_next (step_ticks ticking), tickTurn_eq_ticked more, ih (s := s.ticked 1) ticking, ticked_ticked,
      Nat.add_comm 1]
    rw [← Nat.succ.inj h]
    simp [State.ticked]

/-! ### The call as a whole -/

/-- On a loaded core whose attempts end in `t`, the call ends in the tick phase of `t` (R180). -/
theorem advance_of_attempts {s t : State} {e : Rat} (loaded : s.romLoaded = true)
    (h : runAttempts (attemptCount s.cfg (clampElapsed e)) s = .next t) :
    advance e s = .next (State.tickPhase { t with acc := t.acc + clampElapsed e }) := by
  rw [advance, if_pos loaded, h]

/-- An attempt does not move the place in the `ADVANCE` (R180). -/
theorem cycleAttempt_activity {s t : State} (h : cycleAttempt s = .next t) : t.activity = s.activity := by
  have same := cycleAttempt_at s s.activity
  rw [show s.at s.activity = s from rfl, h, resultAt] at same
  rw [Host.Outcome.next.inj same]
  rfl

/-- The attempts of a call, run step by step inside the `ADVANCE` (R180, R181). -/
theorem run_attempts (s : State) (e : Rat) (n : Nat) :
    ∃ t, runAttempts n s = .next t ∧ t.activity = s.activity ∧
      Host.Core.run Sys2Proof.core n (s.at (.cycles n e)) = .next (t.at (.cycles 0 e)) := by
  induction n generalizing s with
  | zero => exact ⟨s, rfl, rfl, rfl⟩
  | succ n ih =>
    obtain ⟨u, hu, -⟩ := cycleAttempt_total s
    obtain ⟨t, ht, place, run⟩ := ih u
    have stepped : step (s.at (.cycles (n + 1) e)) = .next (u.at (.cycles n e)) := by
      rw [step_cycles rfl]
      exact (cycleAttempt_at s (.cycles n e)).trans (by rw [hu]; rfl)
    refine ⟨t, ?_, place.trans (cycleAttempt_activity hu), (run_next stepped n).trans run⟩
    rw [runAttempts, hu]
    exact ht

/-- After the last attempt: the elapsed time joins ACC and the tick loop runs to its end (R180). -/
theorem run_endCycles {s : State} (idle : s.activity = .idle) (e : Rat) :
    ∃ n, Host.Core.run Sys2Proof.core n (s.at (.cycles 0 e)) = .next (State.tickPhase { s with acc := s.acc + e }) := by
  refine ⟨tickCount (s.acc + e) + 1 + 1, ?_⟩
  refine (run_next (step_endCycles rfl) _).trans ((run_ticks (s := (s.at (.cycles 0 e)).endCycles e) rfl rfl).trans ?_)
  rw [tickPhase_eq, State.at, ← idle]
  rfl

/-- Settles O43: one step starts the call, `run_attempts` and `run_endCycles` are the rest; on a core without a ROM the
start is all there is. -/
theorem advanceStepsRefineTheCall : Obligations.AdvanceStepsRefineTheCall := by
  intro s e rest idle next
  generalize hs : ({ s with inbox := rest, output := .empty } : State) = s₀
  cases loaded : s.romLoaded
  · have unloaded : s₀.romLoaded = false := by rw [← hs, loaded]
    have started : step s = .next s₀ := by
      rw [step_hostOp idle next, hostOp, takeOp_eq, hs, beginAdvance_unloaded unloaded]
    exact ⟨1, s₀, if_neg (by simp [unloaded]), run_next started 0⟩
  · have loaded₀ : s₀.romLoaded = true := by rw [← hs, loaded]
    have idle₀ : s₀.activity = .idle := by rw [← hs, idle]
    obtain ⟨t, attempts, place, run⟩ := run_attempts s₀ (clampElapsed e) (attemptCount s₀.cfg (clampElapsed e))
    obtain ⟨m, ticks⟩ := run_endCycles (place.trans idle₀) (clampElapsed e)
    have started : step s = .next (s₀.at (.cycles (attemptCount s₀.cfg (clampElapsed e)) (clampElapsed e))) := by
      rw [step_advance_loaded idle next loaded, ← hs]
      rfl
    exact ⟨_, _, advance_of_attempts loaded₀ attempts, (run_next started _).trans ((run_add run m).trans ticks)⟩

/-! ### A waiting core -/

/-- On a loaded waiting core the call is its ticks (R165, R181). -/
theorem advance_waiting {s : State} {e : Rat} {r : Nib} (loaded : s.romLoaded = true) (waiting : s.wait = some r)
    (nonneg : 0 ≤ e) :
    advance e s = .next (State.ticked { s with acc := s.acc + e } (tickCount (s.acc + e))) := by
  rw [advance_of_attempts loaded (runAttempts_waiting waiting _), clampElapsed_of_nonneg nonneg, tickPhase_eq]

/-- Settles O44: `advance_waiting`, with the bounds on what is left of ACC. -/
theorem suspendedAdvanceOnlyTicks : Obligations.SuspendedAdvanceOnlyTicks := by
  intro s e r loaded waiting acc nonneg
  obtain ⟨lower, upper⟩ := tickCount_bounds (add_nonneg acc nonneg)
  exact ⟨_, tickCount (s.acc + e), advance_waiting loaded waiting nonneg, rfl, lowered_toNat s.dt _,
    lowered_toNat s.st _, rfl, lower, upper⟩

/-- Time that joins ACC after some ticks could have joined it before them (R180). -/
theorem ticked_add_acc (s : State) (k : Nat) (e : Rat) :
    ({ s.ticked k with acc := (s.ticked k).acc + e } : State) = State.ticked { s with acc := s.acc + e } k := by
  simp only [State.ticked, sub_add_eq_add_sub]

/-- Settles O45: the ticks of both calls add up to those of the one (`tickCount_add`). -/
theorem timerRateIndependentOfCalls : Obligations.TimerRateIndependentOfCalls := by
  intro s e₁ e₂ r loaded waiting acc nonneg₁ nonneg₂
  refine ⟨_, _, advance_waiting loaded waiting nonneg₁,
    advance_waiting (by exact loaded) (by exact waiting) nonneg₂, ?_⟩
  rw [advance_waiting loaded waiting (add_nonneg nonneg₁ nonneg₂), ticked_add_acc, ticked_ticked, ← add_assoc s.acc,
    tickCount_add _ nonneg₂]
  rfl

end Sys2Proof.Machine
